-- ==== Sys2Proof/Word.lean ====
section
/-!
DEFINITION. The two value types of EVMSUB: the 256-bit word (00_scope.md R7) and the 8-bit byte (R8).
-/
namespace Sys2Proof

/-- An 8-bit byte (00_scope.md R8). -/
abbrev Byte := BitVec 8

/-- A data word: WORD_BITS = 256 bits, unsigned (00_scope.md R7). -/
abbrev Word := BitVec 256

end Sys2Proof
end

