-- ==== Sys2Proof/Config.lean ====
section
/-!
DEFINITION. The named parameters of EVMSUB (00_scope.md R10 to R12; the table of OPEN parameters of
92_eei_decisions.md). A machine is built with one value of `Params` and never changes it; `State` carries it as a
constant field, so that every statement about a state holds for every choice of the parameters (log 2).
The spec leaves no result of an instruction undefined (93_implementation_defined.md), so there is no free value.
-/
namespace Sys2Proof

/-- OOB_IMM_POLICY: what fetch-decode does with a push whose immediate runs past the end of the code
(00_scope.md R12, 30_encoding.md R74). -/
inductive OobImmPolicy where
  /-- `Fault`, the default: raise OutOfBoundsImmediate. -/
  | fault
  /-- `End`: decode END, pc unchanged. -/
  | endRun
  /-- `ZeroPad`: the missing, least significant, bytes read as 0x00. -/
  | zeroPad
deriving DecidableEq, Repr

/-- The parameters fixed for one machine. -/
structure Params where
  /-- OOB_IMM_POLICY (00_scope.md R12). -/
  oobImmPolicy : OobImmPolicy
  /-- STACK_LIMIT, the maximum stack depth; `none` is no limit (00_scope.md R10). -/
  stackLimit : Option Nat
  /-- MEM_LIMIT, the maximum memory size in bytes; `none` is no limit (00_scope.md R11). -/
  memLimit : Option Nat
deriving DecidableEq, Repr

/-- The spec's defaults: Fault, none, none (92_eei_decisions.md D5, D7, D8). -/
def Params.defaults : Params :=
  { oobImmPolicy := .fault, stackLimit := none, memLimit := none }

end Sys2Proof
end

