-- ==== Sys2Proof/Syntax.lean ====
section
/-!
DEFINITION. The instructions of EVMSUB-9 (00_scope.md R2, 30_encoding.md R64, R65), the kinds a decode yields
(10_state.md R27), and the records the block hands on and reports (R27, R31).
-/
namespace Sys2Proof

/-- One encoded instruction. A push carries exactly its immediate's bits (30_encoding.md R64). The 17 UNKNOWN
blocks of the opcode table are ONE kind in R65: the byte it was decoded from is kept (R75; log 1). -/
inductive Instr where
  | stop
  | add
  | mul
  | mload
  | mstore
  | mstore8
  | push1 (imm : BitVec 8)
  | push2 (imm : BitVec 16)
  | push32 (imm : BitVec 256)
  | unknown (tag : Byte)
deriving DecidableEq, Repr

/-- The `kind` of an Opcode record (10_state.md R27). END is a decode result, not an instruction. -/
inductive Kind where
  | stop
  | add
  | mul
  | mload
  | mstore
  | mstore8
  | push1
  | push2
  | push32
  | unknown
  | endOfCode
deriving DecidableEq, Repr

/-- The Opcode record fetch-decode hands to execute (10_state.md R27). `addr` is the spec's `at`; it and `tag` are
absent for END. -/
structure OpRecord where
  kind  : Kind
  addr  : Option Nat
  imm   : Word
  tag   : Option Byte
  width : Nat
deriving DecidableEq, Repr

/-- A record of EVENTS: an Opcode record less its `width` (10_state.md R31). -/
structure Event where
  kind : Kind
  addr : Option Nat
  tag  : Option Byte
  imm  : Word
deriving DecidableEq, Repr

/-- One line of the assembly notation: an instruction, or a raw byte `.byte 0xNN` (30_encoding.md R78). -/
inductive AsmLine where
  | instr (i : Instr)
  | rawByte (b : Byte)
deriving DecidableEq, Repr

end Sys2Proof
end

