-- ==== Sys2Proof/WellFormed.lean ====
section
/-!
DEFINITION. Which terms of `Instr` stand for words of the instruction set. The widths of the immediates are in their
types, so the one thing to check is that an UNKNOWN does not carry an opcode byte of one of the nine instructions.
-/
namespace Sys2Proof

/-- The nine bytes of 30_encoding.md R65 that select an instruction. -/
def instructionOpcodes : List Byte :=
  [0x00, 0x01, 0x02, 0x51, 0x52, 0x53, 0x60, 0x61, 0x7f]

/-- UNKNOWN is every byte but the nine (30_encoding.md R75); every other term is well formed. -/
def Instr.wf : Instr → Bool
  | .stop => true
  | .add => true
  | .mul => true
  | .mload => true
  | .mstore => true
  | .mstore8 => true
  | .push1 _ => true
  | .push2 _ => true
  | .push32 _ => true
  | .unknown t => !instructionOpcodes.contains t

end Sys2Proof
end

