-- ==== Sys2Proof/Decode.lean ====
section
/-!
DEFINITION. Big-endian conversion (00_scope.md R15), the opcode map and immediate assembly (30_encoding.md R65, R69),
the decoder, the encoder, and the fetch-decode stage (R71 to R74). Everything here is total and structural.
-/
namespace Sys2Proof

/-! ### Big-endian conversion -/

/-- `be_to_word` as a natural number: the first byte is the most significant; no bytes give 0 (00_scope.md R15). -/
def beToNat (bs : List Byte) : Nat :=
  bs.foldl (fun acc b => acc * 256 + b.toNat) 0

/-- `be_to_word` (00_scope.md R15), for at most 32 bytes. -/
def beToWord (bs : List Byte) : Word :=
  BitVec.ofNat 256 (beToNat bs)

/-- Byte i of a word's big-endian encoding: `v[255-8i : 248-8i]` (00_scope.md R15). -/
def wordByte (v : Word) (i : Nat) : Byte :=
  v.extractLsb' (248 - 8 * i) 8

/-- `word_to_be32` (00_scope.md R15). -/
def wordToBe32 (v : Word) : List Byte :=
  (List.range 32).map (wordByte v)

/-! ### The opcode map -/

/-- N, the number of immediate bytes the opcode byte announces (30_encoding.md R65, R67). -/
def immLength (t : Byte) : Nat :=
  if t = 0x60 then 1
  else if t = 0x61 then 2
  else if t = 0x7f then 32
  else 0

/-- The instruction an opcode byte selects, with the immediate its N bytes hold (30_encoding.md R65, R66, R69). -/
def instrOf (t : Byte) (imm : List Byte) : Instr :=
  if t = 0x00 then .stop
  else if t = 0x01 then .add
  else if t = 0x02 then .mul
  else if t = 0x51 then .mload
  else if t = 0x52 then .mstore
  else if t = 0x53 then .mstore8
  else if t = 0x60 then .push1 (BitVec.ofNat 8 (beToNat imm))
  else if t = 0x61 then .push2 (BitVec.ofNat 16 (beToNat imm))
  else if t = 0x7f then .push32 (beToWord imm)
  else .unknown t

/-- The `kind` of an instruction's record (10_state.md R27). -/
def Instr.kind : Instr → Kind
  | .stop => .stop
  | .add => .add
  | .mul => .mul
  | .mload => .mload
  | .mstore => .mstore
  | .mstore8 => .mstore8
  | .push1 _ => .push1
  | .push2 _ => .push2
  | .push32 _ => .push32
  | .unknown _ => .unknown

/-- The `tag`: the opcode byte of an instruction (30_encoding.md R65). -/
def Instr.opcode : Instr → Byte
  | .stop => 0x00
  | .add => 0x01
  | .mul => 0x02
  | .mload => 0x51
  | .mstore => 0x52
  | .mstore8 => 0x53
  | .push1 _ => 0x60
  | .push2 _ => 0x61
  | .push32 _ => 0x7f
  | .unknown t => t

/-- The width in bytes, opcode byte plus immediate bytes (30_encoding.md R63, R65). -/
def Instr.width : Instr → Nat
  | .stop => 1
  | .add => 1
  | .mul => 1
  | .mload => 1
  | .mstore => 1
  | .mstore8 => 1
  | .push1 _ => 2
  | .push2 _ => 3
  | .push32 _ => 33
  | .unknown _ => 1

/-- The record's `imm`: the immediate zero-extended to 256 bits, 0 for a kind without one (10_state.md R27,
30_encoding.md R69). -/
def Instr.imm : Instr → Word
  | .stop => 0
  | .add => 0
  | .mul => 0
  | .mload => 0
  | .mstore => 0
  | .mstore8 => 0
  | .push1 v => v.setWidth 256
  | .push2 v => v.setWidth 256
  | .push32 v => v
  | .unknown _ => 0

/-! ### Decoding bytes -/

/-- What a list of bytes decodes to. Only the two last are no instruction, and each says why. -/
inductive Decoded where
  /-- An instruction, and the bytes after it. -/
  | instr (i : Instr) (rest : List Byte)
  /-- No byte is left: END (30_encoding.md R73). -/
  | noBytes
  /-- Opcode byte `tag` announces `need` immediate bytes and only `avail`, fewer, are left (30_encoding.md R74). -/
  | shortImmediate (tag : Byte) (need : Nat) (avail : List Byte)
deriving DecidableEq, Repr

/-- The instruction at the front of a list of bytes. The opcode byte alone fixes the length (30_encoding.md R67). -/
def decode : List Byte → Decoded
  | [] => .noBytes
  | t :: rest =>
    if rest.length < immLength t then .shortImmediate t (immLength t) rest
    else .instr (instrOf t (rest.take (immLength t))) (rest.drop (immLength t))

/-! ### Encoding -/

/-- The bytes of an instruction, in address order (30_encoding.md R64). -/
def encode : Instr → List Byte
  | .stop => [0x00]
  | .add => [0x01]
  | .mul => [0x02]
  | .mload => [0x51]
  | .mstore => [0x52]
  | .mstore8 => [0x53]
  | .push1 v => [0x60, v]
  | .push2 v => [0x61, v.extractLsb' 8 8, v.extractLsb' 0 8]
  | .push32 v => 0x7f :: wordToBe32 v
  | .unknown t => [t]

/-- The bytes one line of the notation assembles to; there are no pseudo-instructions (30_encoding.md R78, R79). -/
def AsmLine.bytes : AsmLine → List Byte
  | .instr i => encode i
  | .rawByte b => [b]

/-- The bytes of a program in the notation of 30_encoding.md R78. -/
def assemble (lines : List AsmLine) : List Byte :=
  lines.flatMap AsmLine.bytes

/-! ### Records -/

/-- The Opcode record of an instruction found at `addr` (10_state.md R27). -/
def Instr.record (i : Instr) (addr : Nat) : OpRecord :=
  { kind := i.kind, addr := some addr, imm := i.imm, tag := some i.opcode, width := i.width }

/-- The Opcode record of END: no `at`, no tag, width 0 (10_state.md R27, 30_encoding.md R73). -/
def OpRecord.endOfCode : OpRecord :=
  { kind := .endOfCode, addr := none, imm := 0, tag := none, width := 0 }

/-- A record as it is reported: less its width (10_state.md R31). -/
def OpRecord.event (r : OpRecord) : Event :=
  { kind := r.kind, addr := r.addr, tag := r.tag, imm := r.imm }

/-! ### The fetch-decode stage -/

/-- What fetch-decode returns: an instruction and the next pc, END (pc unchanged), or the fault
OutOfBoundsImmediate of opcode byte `tag` at pc (30_encoding.md R71). The Opcode record of an instruction is
`Instr.record` of it at pc. -/
inductive Fetched where
  | op (i : Instr) (pcNext : Nat)
  | endOfCode
  | outOfBounds (tag : Byte)
deriving DecidableEq, Repr

/-- `OutOfBounds(pc, t, kind, N)` (30_encoding.md R74): `avail` are the immediate bytes the code still holds. -/
def decodeOutOfBounds (policy : OobImmPolicy) (pc : Nat) (t : Byte) (n : Nat) (avail : List Byte) : Fetched :=
  match policy with
  | .fault => .outOfBounds t
  | .endRun => .endOfCode
  | .zeroPad => .op (instrOf t (avail ++ List.replicate (n - avail.length) 0x00)) (pc + 1 + n)

/-- `FetchDecode(code, CODE_LEN, pc)`, a pure function of the code and pc (30_encoding.md R71, R72). -/
def fetchDecode (policy : OobImmPolicy) (code : List Byte) (pc : Nat) : Fetched :=
  match decode (code.drop pc) with
  | .noBytes => .endOfCode
  | .shortImmediate t n avail => decodeOutOfBounds policy pc t n avail
  | .instr i _ => .op i (pc + i.width)

/-! ### The opcode table's numbering of bits -/

/-- The bytes of the number `w`, of `nbits` bits, as spec/opcode_table.json numbers them: bit 0 is the least
significant bit of the first byte, and the second byte is bits 15..8. As many bytes as the longest instruction has;
those above `nbits` are zero. -/
def tableBytes (nbits w : Nat) : List Byte :=
  (List.range 33).map fun k => BitVec.ofNat 8 (w % 2 ^ nbits / 2 ^ (8 * k))

/-- The instruction the decoder reads from the bytes of an opcode-table word. -/
def decodeTableWord (nbits w : Nat) : Option Instr :=
  match decode (tableBytes nbits w) with
  | .instr i _ => some i
  | .noBytes => none
  | .shortImmediate _ _ _ => none

end Sys2Proof
end

