-- ==== Sys2Proof/Machine/State.lean ====
section
/-!
DEFINITION. The state of EVMSUB (10_state.md), the reasons a step can stop, and reset (70_reset_and_hazards.md R124).
-/
namespace Sys2Proof.Machine

/-- MODE (10_state.md R28): which driver loop runs. It is no privilege level (60_exceptions.md R118). -/
inductive Mode where
  | run
  | debug
deriving DecidableEq, Repr

/-- RUN_STATE (10_state.md R29). -/
inductive RunState where
  | running
  | halted
  | faulted
deriving DecidableEq, Repr

/-- The fault causes of 60_exceptions.md R106 to R109; their codes are `Cause.code` in Machine/Flags.lean. -/
inductive Cause where
  | stackUnderflow
  | outOfBoundsImmediate
  | memoryLimit
  | stackOverflow
deriving DecidableEq, Repr

/-- What an address below MSIZE that `cells` does not list reads as: memory is zero-filled when it grows
(20_memory.md R44). -/
def unlistedByte : Byte := 0x00

/-- The data memory (10_state.md R26): `size` is MSIZE, and `cells` lists the bytes below MSIZE that are not zero,
in rising order of address (log 8). No byte exists at or above MSIZE. -/
structure Memory where
  size  : Nat
  cells : List Host.Cell
deriving DecidableEq, Repr

/-- The canonical form: addresses strictly rising, every one below MSIZE, and no byte equal to what an unlisted
address reads as. -/
abbrev Memory.wf (m : Memory) : Prop :=
  m.cells.Pairwise (fun c d => c.1 < d.1) ∧ ∀ c ∈ m.cells, c.1 < m.size ∧ c.2 ≠ unlistedByte

/-- Memory at reset: MSIZE = 0 and no bytes (10_state.md R26, R36). -/
def Memory.empty : Memory := { size := 0, cells := [] }

/-- Everything the spec gives the machine (10_state.md R36, and the parameters of 00_scope.md R10 to R12). -/
structure State where
  /-- The code store; CODE_LEN is its length (R19, 00_scope.md R9). -/
  code : List Byte
  /-- The program counter, a natural number (R20). -/
  pc : Nat
  /-- The Stack S, top first; `depth` is its length (R21, R25). -/
  stack : List Word
  /-- MSIZE and M (R26). -/
  mem : Memory
  /-- RUN_STATE (R29). -/
  runState : RunState
  /-- MODE, constant for the run (R28). -/
  mode : Mode
  /-- EVENTS, oldest record first (R31). -/
  events : List Event
  /-- FAULT_CAUSE, 8 bits (R32). -/
  faultCause : BitVec 8
  /-- FAULT_PC (R32). -/
  faultPc : Nat
  /-- FAULT_OPCODE, 8 bits (R32). -/
  faultOpcode : Byte
  /-- OOB_IMM_POLICY, STACK_LIMIT and MEM_LIMIT, constant for the machine (log 2). -/
  params : Params
deriving DecidableEq, Repr

/-- CODE_LEN (00_scope.md R9). -/
abbrev State.codeLen (s : State) : Nat := s.code.length

/-- depth (10_state.md R25). -/
abbrev State.depth (s : State) : Nat := s.stack.length

/-- Why a step has no next state. The faults of the spec are NOT here: they have an entry the spec describes, so they
are next states (60_exceptions.md R114; `State.raise`). -/
inductive Fault where
  /-- `step` in a Halted state: the block takes no step (40_control.md R80; 93_implementation_defined.md I12, "stuck").
  Safe: nothing happens where the spec says nothing happens (log 5). -/
  | noStepFromHalted
  /-- `step` in a Faulted state: the block takes no step (40_control.md R80; 60_exceptions.md R116). Safe (log 5). -/
  | noStepFromFaulted
  /-- A memory access beyond MSIZE, which breaks the accessor's precondition (20_memory.md R45 to R48). No step
  reaches it, since every step grows memory first. Safe (log 9). -/
  | accessBeyondMsize
deriving DecidableEq, Repr

/-- Why an instruction is not run. -/
inductive Refusal where
  /-- An instruction that has no meaning in the model: an arm of `exec` that is rejected by name. No arm is. Safe. -/
  | notModelled (mnemonic : String)
deriving DecidableEq, Repr

/-- `Reset(bytes, mode)` of a machine built with the given parameters (70_reset_and_hazards.md R124). -/
def State.resetWith (bytes : List Byte) (mode : Mode) (params : Params) : State :=
  { code := bytes
    pc := 0
    stack := []
    mem := Memory.empty
    runState := .running
    mode := mode
    events := []
    faultCause := 0
    faultPc := 0
    faultOpcode := 0
    params := params }

/-- The machine right after reset with no code delivered yet, in run mode, with the default parameters (log 3). -/
def State.reset : State := State.resetWith [] .run Params.defaults

end Sys2Proof.Machine
end

