-- ==== Sys2Proof/Machine/Flags.lean ====
section
/-!
DEFINITION. EVMSUB has no status flags, condition codes or predicates (10_state.md R33), so there is no flag to
compute. What is here are the numbers of its control and status state: the encodings of MODE, RUN_STATE and
FAULT_CAUSE (10_state.md R28, R29, 60_exceptions.md R110; 92_eei_decisions.md D11).
-/
namespace Sys2Proof.Machine

/-- The number of a MODE value (10_state.md R28). -/
def Mode.code : Mode → Nat
  | .run => 0
  | .debug => 1

/-- The number of a RUN_STATE value (10_state.md R29). -/
def RunState.code : RunState → Nat
  | .running => 0
  | .halted => 1
  | .faulted => 2

/-- The FAULT_CAUSE code of a fault (60_exceptions.md R110); 0 is no fault. -/
def Cause.code : Cause → BitVec 8
  | .stackUnderflow => 1
  | .outOfBoundsImmediate => 2
  | .memoryLimit => 3
  | .stackOverflow => 4

end Sys2Proof.Machine
end

