-- ==== Sys2Proof/Machine/Ops.lean ====
section
/-!
DEFINITION. The named operations over memory, stack, events and status (00_scope.md R17), and taking a fault
(60_exceptions.md R114).
-/
namespace Sys2Proof.Machine

/-! ### Memory cells -/

/-- The byte a list of cells holds at `a`. -/
def cellsGet : List Host.Cell → Nat → Byte
  | [], _ => unlistedByte
  | c :: cs, a => if c.1 = a then c.2 else cellsGet cs a

/-- Put a cell before the first one of a greater address. -/
def cellsInsert (a : Nat) (b : Byte) : List Host.Cell → List Host.Cell
  | [] => [(a, b)]
  | c :: cs => if a < c.1 then (a, b) :: c :: cs else c :: cellsInsert a b cs

/-- Make address `a` hold `b`, keeping the canonical form: an unlisted value is not listed. -/
def cellsSet (cells : List Host.Cell) (a : Nat) (b : Byte) : List Host.Cell :=
  if b = unlistedByte then cells.filter (fun c => c.1 != a)
  else cellsInsert a b (cells.filter (fun c => c.1 != a))

/-! ### The memory controller -/

/-- The byte at `a`; it exists only when a < MSIZE (10_state.md R26). -/
def Memory.byte? (m : Memory) (a : Nat) : Option Byte :=
  if a < m.size then some (cellsGet m.cells a) else none

/-- `Grow(n)` (20_memory.md R44): if n > MSIZE, the bytes from MSIZE up to n - 1 become 0x00 and MSIZE becomes n; else
nothing changes. (No canonical memory lists a cell at or above MSIZE; one that did would lose it here, as the zero-fill
says.) -/
def Memory.grow (m : Memory) (n : Nat) : Memory :=
  if m.size < n then { size := n, cells := m.cells.filter (fun c => decide (c.1 < m.size)) } else m

/-- The `n` bytes from `a` up, in address order. -/
def Memory.getBytes (m : Memory) (a n : Nat) : List Byte :=
  (List.range n).map fun i => cellsGet m.cells (a + i)

/-- Store bytes from `a` up, in address order; MSIZE unchanged. -/
def Memory.setBytes (m : Memory) (a : Nat) : List Byte → Memory
  | [] => m
  | b :: bs => Memory.setBytes { m with cells := cellsSet m.cells a b } (a + 1) bs

/-- `MemRead(addr, 32)` (20_memory.md R45); `none` if its precondition addr + 32 <= MSIZE fails (R48). -/
def Memory.readWord? (m : Memory) (a : Nat) : Option Word :=
  if a + 32 ≤ m.size then some (beToWord (m.getBytes a 32)) else none

/-- `MemWrite(addr, 32, v)` (20_memory.md R46); `none` if its precondition addr + 32 <= MSIZE fails (R48). -/
def Memory.writeWord? (m : Memory) (a : Nat) (v : Word) : Option Memory :=
  if a + 32 ≤ m.size then some (m.setBytes a (wordToBe32 v)) else none

/-- `MemWrite(addr, 1, b)` (20_memory.md R47); `none` if its precondition addr + 1 <= MSIZE fails (R48). -/
def Memory.writeByte? (m : Memory) (a : Nat) (b : Byte) : Option Memory :=
  if a + 1 ≤ m.size then some (m.setBytes a [b]) else none

/-! ### Updates of the state -/

/-- `pc <- target` (00_scope.md R17). -/
def State.setPc (s : State) (target : Nat) : State := { s with pc := target }

/-- The stack after a pop or a push. -/
def State.setStack (s : State) (stack : List Word) : State := { s with stack := stack }

/-- The memory after a growth or a write. -/
def State.setMem (s : State) (mem : Memory) : State := { s with mem := mem }

/-- `Push(v)`: `S <- [v] ++ S` (10_state.md R22). -/
def State.push (s : State) (v : Word) : State := s.setStack (v :: s.stack)

/-- `Peek()`: the top word, S unchanged; there is none in an empty stack (10_state.md R24). -/
def State.peek? (s : State) : Option Word := s.stack.head?

/-- `emit(record)`: append to EVENTS (10_state.md R31). -/
def State.emit (s : State) (r : OpRecord) : State := { s with events := s.events ++ [r.event] }

/-- `halt`: RUN_STATE becomes Halted (00_scope.md R17). -/
def State.halt (s : State) : State := { s with runState := .halted }

/-! ### Taking a fault -/

/-- `raise F(at, tag)` on the state the step started from (60_exceptions.md R114): RUN_STATE becomes Faulted and the
fault record is written; pc, S, M, MSIZE and EVENTS keep their values from the start of the step. Control goes nowhere,
and there is no return from a fault (R116), so no operation stands beside this one. -/
def State.raise (s : State) (c : Cause) (addr : Nat) (tag : Byte) : State :=
  { s with runState := .faulted, faultCause := c.code, faultPc := addr, faultOpcode := tag }

/-! ### Inside a step -/

/-- How the inside of a step ends early: by a fault of the spec, or by an access no step makes (20_memory.md R48). -/
inductive Abort where
  | raised (c : Cause)
  | stuck (f : Fault)
deriving DecidableEq, Repr

/-- `Pop()`: the top word and the state without it; on an empty stack StackUnderflow (10_state.md R23). -/
def State.pop (s : State) : Except Abort (Word × State) :=
  match s.stack with
  | [] => .error (.raised .stackUnderflow)
  | w :: rest => .ok (w, s.setStack rest)

/-- `MemRead(addr, 32)` in a step. -/
def State.memRead (s : State) (a : Nat) : Except Abort Word :=
  match s.mem.readWord? a with
  | some v => .ok v
  | none => .error (.stuck .accessBeyondMsize)

/-- `MemWrite(addr, 32, v)` in a step. -/
def State.memWriteWord (s : State) (a : Nat) (v : Word) : Except Abort State :=
  match s.mem.writeWord? a v with
  | some m => .ok (s.setMem m)
  | none => .error (.stuck .accessBeyondMsize)

/-- `MemWrite(addr, 1, b)` in a step. -/
def State.memWriteByte (s : State) (a : Nat) (b : Byte) : Except Abort State :=
  match s.mem.writeByte? a b with
  | some m => .ok (s.setMem m)
  | none => .error (.stuck .accessBeyondMsize)

end Sys2Proof.Machine
end

