-- ==== Sys2Proof/Machine/Operands.lean ====
section
/-!
DEFINITION. The operands of an instruction: how many words it pops and pushes and the check of them (40_control.md
R81), the memory size it needs (20_memory.md R49), and the check of that against MEM_LIMIT (R50). Its one explicit
operand, an immediate, is `Instr.imm` (30_encoding.md R68, R69).
-/
namespace Sys2Proof.Machine

/-- The number of words each kind pops (40_control.md R81). -/
def pops : Instr → Nat
  | .stop => 0
  | .add => 2
  | .mul => 2
  | .mload => 1
  | .mstore => 2
  | .mstore8 => 2
  | .push1 _ => 0
  | .push2 _ => 0
  | .push32 _ => 0
  | .unknown _ => 0

/-- The number of words each kind pushes (40_control.md R81). -/
def pushes : Instr → Nat
  | .stop => 0
  | .add => 1
  | .mul => 1
  | .mload => 1
  | .mstore => 0
  | .mstore8 => 0
  | .push1 _ => 1
  | .push2 _ => 1
  | .push32 _ => 1
  | .unknown _ => 0

/-- Does a quantity exceed an optional limit? -/
def exceeds (limit : Option Nat) (n : Nat) : Bool :=
  match limit with
  | some l => decide (l < n)
  | none => false

/-- `CheckOperands(op)` (40_control.md R81): the fault it raises, if any. StackUnderflow comes first (60_exceptions.md
R113). The overflow check is that of R81's pseudocode, made for every kind (log 7). -/
def checkOperands (i : Instr) (s : State) : Option Cause :=
  if s.depth < pops i then some .stackUnderflow
  else if exceeds s.params.stackLimit (s.depth - pops i + pushes i) then some .stackOverflow
  else none

/-- `RequiredSize(kind, S)` (20_memory.md R49): the sum is on natural numbers and is not reduced. With too few
operands there is no peek; `checkOperands` has faulted before. -/
def requiredSize (i : Instr) (s : State) : Option Nat :=
  match i with
  | .mload => s.peek?.map fun offset => offset.toNat + 32
  | .mstore => s.peek?.map fun offset => offset.toNat + 32
  | .mstore8 => s.peek?.map fun offset => offset.toNat + 1
  | .stop => none
  | .add => none
  | .mul => none
  | .push1 _ => none
  | .push2 _ => none
  | .push32 _ => none
  | .unknown _ => none

end Sys2Proof.Machine
end

