-- ==== Sys2Proof/Machine/Execute.lean ====
section
/-!
DEFINITION. What every run-mode instruction does around its own effect (40_control.md R80, in the order of
70_reset_and_hazards.md R133): check the operands, find the required size and check it against MEM_LIMIT, grow memory,
advance pc; then the effect; and if anything raised, the fault entry on the state the step started from.
-/
namespace Sys2Proof.Machine

/-- The part of `RunStep` between the decode and the effect (40_control.md R80). -/
def prepare (i : Instr) (s : State) : Except Abort State :=
  match checkOperands i s with
  | some c => .error (.raised c)
  | none =>
    match requiredSize i s with
    | none => .ok (s.setPc (s.pc + i.width))
    | some r =>
      if exceeds s.params.memLimit r then .error (.raised .memoryLimit)
      else .ok ((s.setMem (s.mem.grow r)).setPc (s.pc + i.width))

/-- Run the effect of instruction `i`, found at pc, on the prepared state. A raise anywhere keeps none of the step's
writes (60_exceptions.md R114): `at` is the pc the step started from and `tag` the instruction's opcode byte. -/
def execute (i : Instr) (effect : State → Except Abort State) (s : State) : Host.Outcome State Fault Refusal :=
  match prepare i s with
  | .error (.raised c) => .next (s.raise c s.pc i.opcode)
  | .error (.stuck f) => .fault f
  | .ok p =>
    match effect p with
    | .error (.raised c) => .next (s.raise c s.pc i.opcode)
    | .error (.stuck f) => .fault f
    | .ok t => .next t

end Sys2Proof.Machine
end

