-- ==== Sys2Proof/Machine/Alu.lean ====
section
/-!
DEFINITION. The 256-bit ALU (41_alu.md R91) and the meanings of ADD (R93) and MUL (R94).
-/
namespace Sys2Proof.Machine

/-- `ALU_ADD(a, b) = (a + b) mod 2^256`, the sum taken on natural numbers (41_alu.md R91). -/
def aluAdd (a b : Word) : Word := BitVec.ofNat 256 (a.toNat + b.toNat)

/-- `ALU_MUL(a, b) = (a * b) mod 2^256`, the product taken on natural numbers (41_alu.md R91). -/
def aluMul (a b : Word) : Word := BitVec.ofNat 256 (a.toNat * b.toNat)

/-- The effect ADD and MUL share: pop a, pop b, push the ALU's result (41_alu.md R93, R94). -/
def aluEffect (alu : Word → Word → Word) (p : State) : Except Abort State :=
  match p.pop with
  | .error e => .error e
  | .ok (a, p1) =>
    match p1.pop with
    | .error e => .error e
    | .ok (b, p2) => .ok (p2.push (alu a b))

/-- ADD (41_alu.md R93). -/
def execAdd (s : State) : Host.Outcome State Fault Refusal :=
  execute .add (aluEffect aluAdd) s

/-- MUL (41_alu.md R94). -/
def execMul (s : State) : Host.Outcome State Fault Refusal :=
  execute .mul (aluEffect aluMul) s

end Sys2Proof.Machine
end

