-- ==== Sys2Proof/Machine/Control.lean ====
section
/-!
DEFINITION. The run-mode meanings of STOP (40_control.md R85) and UNKNOWN (R86).
-/
namespace Sys2Proof.Machine

/-- The effect of STOP: `halt`; pc is already at + 1 (40_control.md R85). -/
def stopEffect (p : State) : Except Abort State := .ok p.halt

/-- The effect of UNKNOWN found at `addr`: its record is appended to EVENTS, and nothing else (40_control.md R86). -/
def unknownEffect (tag : Byte) (addr : Nat) (p : State) : Except Abort State :=
  .ok (p.emit ((Instr.unknown tag).record addr))

/-- STOP (40_control.md R85). -/
def execStop (s : State) : Host.Outcome State Fault Refusal :=
  execute .stop stopEffect s

/-- UNKNOWN (40_control.md R86): a no-op, reported (60_exceptions.md R112). -/
def execUnknown (tag : Byte) (s : State) : Host.Outcome State Fault Refusal :=
  execute (.unknown tag) (unknownEffect tag s.pc) s

end Sys2Proof.Machine
end

