-- ==== Sys2Proof/Machine/MemoryOps.lean ====
section
/-!
DEFINITION. The meanings of MLOAD (42_memory_ops.md R97), MSTORE (R98) and MSTORE8 (R99). Each effect runs after the
step has checked the operands, grown memory to the required size and advanced pc. The address is the top stack word,
used unchanged as a natural number (R96).
-/
namespace Sys2Proof.Machine

/-- The effect of MLOAD: pop the offset, read the word there, push it (42_memory_ops.md R97). -/
def mloadEffect (p : State) : Except Abort State :=
  match p.pop with
  | .error e => .error e
  | .ok (offset, p1) =>
    match p1.memRead offset.toNat with
    | .error e => .error e
    | .ok v => .ok (p1.push v)

/-- The effect of MSTORE: pop the offset, pop the value, write the word (42_memory_ops.md R98). -/
def mstoreEffect (p : State) : Except Abort State :=
  match p.pop with
  | .error e => .error e
  | .ok (offset, p1) =>
    match p1.pop with
    | .error e => .error e
    | .ok (value, p2) => p2.memWriteWord offset.toNat value

/-- The effect of MSTORE8: pop the offset, pop the value, write value[7:0] (42_memory_ops.md R99). -/
def mstore8Effect (p : State) : Except Abort State :=
  match p.pop with
  | .error e => .error e
  | .ok (offset, p1) =>
    match p1.pop with
    | .error e => .error e
    | .ok (value, p2) => p2.memWriteByte offset.toNat (value.extractLsb' 0 8)

/-- MLOAD (42_memory_ops.md R97). -/
def execMload (s : State) : Host.Outcome State Fault Refusal :=
  execute .mload mloadEffect s

/-- MSTORE (42_memory_ops.md R98). -/
def execMstore (s : State) : Host.Outcome State Fault Refusal :=
  execute .mstore mstoreEffect s

/-- MSTORE8 (42_memory_ops.md R99). -/
def execMstore8 (s : State) : Host.Outcome State Fault Refusal :=
  execute .mstore8 mstore8Effect s

end Sys2Proof.Machine
end

