-- ==== Sys2Proof/Machine/Push.lean ====
section
/-!
DEFINITION. The meanings of PUSH1 (43_push.md R101), PUSH2 (R102) and PUSH32 (R103). The three share one effect (R100):
push the decoded immediate, zero-extended to 256 bits (30_encoding.md R69).
-/
namespace Sys2Proof.Machine

/-- The effect of a push (43_push.md R100). -/
def pushEffect (imm : Word) (p : State) : Except Abort State := .ok (p.push imm)

/-- PUSH1 (43_push.md R101). -/
def execPush1 (imm : BitVec 8) (s : State) : Host.Outcome State Fault Refusal :=
  execute (.push1 imm) (pushEffect (Instr.push1 imm).imm) s

/-- PUSH2 (43_push.md R102). -/
def execPush2 (imm : BitVec 16) (s : State) : Host.Outcome State Fault Refusal :=
  execute (.push2 imm) (pushEffect (Instr.push2 imm).imm) s

/-- PUSH32 (43_push.md R103). -/
def execPush32 (imm : BitVec 256) (s : State) : Host.Outcome State Fault Refusal :=
  execute (.push32 imm) (pushEffect (Instr.push32 imm).imm) s

end Sys2Proof.Machine
end

