-- ==== Sys2Proof/Machine/Dispatch.lean ====
section
/-!
DEFINITION. The run-mode meaning of every instruction, found at pc: everything `RunStep` does after the decode
(40_control.md R80; log 14). One arm per constructor.
-/
namespace Sys2Proof.Machine

def exec (i : Instr) (s : State) : Host.Outcome State Fault Refusal :=
  match i with
  | .stop => Sys2Proof.Machine.execStop s
  | .add => Sys2Proof.Machine.execAdd s
  | .mul => Sys2Proof.Machine.execMul s
  | .mload => Sys2Proof.Machine.execMload s
  | .mstore => Sys2Proof.Machine.execMstore s
  | .mstore8 => Sys2Proof.Machine.execMstore8 s
  | .push1 imm => Sys2Proof.Machine.execPush1 imm s
  | .push2 imm => Sys2Proof.Machine.execPush2 imm s
  | .push32 imm => Sys2Proof.Machine.execPush32 imm s
  | .unknown tag => Sys2Proof.Machine.execUnknown tag s

end Sys2Proof.Machine
end

