-- ==== Sys2Proof/Machine/Cycle.lean ====
section
/-!
DEFINITION. The step of each mode: the run-mode step (40_control.md R80) and the debug-mode step (R84), which share the
fetch-decode stage (30_encoding.md R71); and the code store with one instruction word laid at pc.
-/
namespace Sys2Proof.Machine

/-- Fetch-decode at pc (30_encoding.md R71). -/
def State.fetch (s : State) : Fetched :=
  fetchDecode s.params.oobImmPolicy s.code s.pc

/-- `RunStep()` (40_control.md R80). At pc >= CODE_LEN it halts without decoding (R82); END below CODE_LEN comes only
from OOB_IMM_POLICY = End. The next pc is pc plus the instruction's width, which `exec` writes. -/
def runStep (s : State) : Host.Outcome State Fault Refusal :=
  if s.codeLen ≤ s.pc then .next s.halt
  else
    match s.fetch with
    | .endOfCode => .next s.halt
    | .outOfBounds tag => .next (s.raise .outOfBoundsImmediate s.pc tag)
    | .op i _ => exec i s

/-- `DebugStep()` (40_control.md R84): decode and emit the record, END's too; END halts, every other kind moves pc to
the next instruction. STOP and UNKNOWN do not halt here (R89). The OOB policy is that of run mode
(92_eei_decisions.md D23). -/
def debugStep (s : State) : Host.Outcome State Fault Refusal :=
  match s.fetch with
  | .endOfCode => .next (s.emit OpRecord.endOfCode).halt
  | .outOfBounds tag => .next (s.raise .outOfBoundsImmediate s.pc tag)
  | .op i pcNext => .next ((s.emit (i.record s.pc)).setPc pcNext)

/-- The code with the bytes `bs` from `pc` up; a gap between the end of the code and `pc` is filled with 0x00. -/
def codeWithBytesAt (code : List Byte) (pc : Nat) (bs : List Byte) : List Byte :=
  code.take pc ++ List.replicate (pc - code.length) 0x00 ++ bs ++ code.drop (pc + bs.length)

end Sys2Proof.Machine
end

