-- ==== Sys2Proof/Machine/Step.lean ====
section
/-!
DEFINITION. One step of the block: while RUN_STATE is Running, the step of its MODE; from Halted or Faulted none
(40_control.md R80, R84, 60_exceptions.md R116; log 5). And the placing of one instruction word where the next step
fetches (log 4).
-/
namespace Sys2Proof.Machine

/-- One atomic transition (00_scope.md R17). -/
def step (s : State) : Host.Outcome State Fault Refusal :=
  match s.runState with
  | .halted => .fault .noStepFromHalted
  | .faulted => .fault .noStepFromFaulted
  | .running =>
    match s.mode with
    | .run => runStep s
    | .debug => debugStep s

/-- The state in which the next step fetches and runs exactly the instruction of an opcode-table word: its bytes lie
in the code at pc, and the block is Running in run mode (log 4). -/
def State.withFetchWord (s : State) (nbits w : Nat) : State :=
  { s with
    code := codeWithBytesAt s.code s.pc (tableBytes nbits w)
    runState := .running
    mode := .run }

end Sys2Proof.Machine
end

