-- ==== Sys2Proof/Machine/Boot.lean ====
section
/-!
DEFINITION. What the host does before a run: the Hex Decoder's contract (70_reset_and_hazards.md R127) and the boot
order with its three errors (R128, 60_exceptions.md R111). This is host-side, outside the block (00_scope.md R6): no step
uses it. Text is a list of characters.
-/
namespace Sys2Proof.Machine

/-- The host errors that mean the block is never started (60_exceptions.md R111). -/
inductive HostError where
  /-- A missing path, or a mode other than `run` and `debug`. -/
  | invalidArguments
  /-- The file cannot be read. -/
  | ioError
  /-- DecodeError: the text has an odd length. The position R127 asks for is that length, which is where the missing
  second digit would stand (DESIGN CHOICE, log 15: R127 does not say which position an odd length has). -/
  | oddLength (length : Nat)
  /-- DecodeError: the pair that starts at character `position` is not two hexadecimal digits (that a pair is named by
  its first character is log 15's DESIGN CHOICE). -/
  | badPair (position : Nat)
deriving DecidableEq, Repr

/-- The value of a hexadecimal digit, in either case. -/
def hexDigit? (c : Char) : Option Nat :=
  let n := c.toNat
  if 48 ≤ n ∧ n ≤ 57 then some (n - 48)
  else if 97 ≤ n ∧ n ≤ 102 then some (n - 87)
  else if 65 ≤ n ∧ n ≤ 70 then some (n - 55)
  else none

/-- Decode pairs from character `position` on; a last single character is an odd length. -/
def hexPairs (position : Nat) : List Char → Except HostError (List Byte)
  | [] => .ok []
  | [_] => .error (.oddLength (position + 1))
  | c :: d :: rest =>
    match hexDigit? c, hexDigit? d with
    | some x, some y =>
      match hexPairs (position + 2) rest with
      | .ok bs => .ok (BitVec.ofNat 8 (16 * x + y) :: bs)
      | .error e => .error e
    | _, _ => .error (.badPair position)

/-- The Hex Decoder (70_reset_and_hazards.md R127). DESIGN CHOICE, log 15: the length is checked before the pairs, and the
position reported for an odd length is the text's length; R127 asks for the offending position and does not say which. -/
def hexDecode (text : List Char) : Except HostError (List Byte) :=
  if text.length % 2 = 1 then .error (.oddLength text.length) else hexPairs 0 text

/-- The character of a hexadecimal digit's value, in lower case. -/
def hexChar (n : Nat) : Char :=
  if n < 10 then Char.ofNat (48 + n) else Char.ofNat (87 + n)

/-- Each byte as two hexadecimal digits. -/
def hexEncode : List Byte → List Char
  | [] => []
  | b :: bs => hexChar (b.toNat / 16) :: hexChar (b.toNat % 16) :: hexEncode bs

/-- The mode selector: exactly two recognized values (10_state.md R28). -/
def modeOf? (text : List Char) : Option Mode :=
  if text = ['r', 'u', 'n'] then some .run
  else if text = ['d', 'e', 'b', 'u', 'g'] then some .debug
  else none

/-- The boot order (70_reset_and_hazards.md R128): arguments, then the file, then the hex text, then reset. `path` and
`mode` are the arguments given; `file` is what reading that path yields. -/
def boot (params : Params) (path mode : Option (List Char)) (file : List Char → Option (List Char)) :
    Except HostError State :=
  match path, mode.bind modeOf? with
  | some p, some m =>
    match file p with
    | none => .error .ioError
    | some text =>
      match hexDecode text with
      | .error e => .error e
      | .ok bytes => .ok (State.resetWith bytes m params)
  | _, _ => .error .invalidArguments

end Sys2Proof.Machine
end

