-- ==== Sys2Proof/Machine/Readout.lean ====
section
/-!
DEFINITION. What the host reads when a run has ended (70_reset_and_hazards.md R130, R131).
-/
namespace Sys2Proof.Machine

/-- The host's view of a state. -/
inductive Readout where
  /-- RUN_STATE = Running: the run has not ended. -/
  | notEnded
  /-- Run mode, Halted: the stack top to bottom, each entry with its depth index and its 32 big-endian bytes; MSIZE and
  M; pc; EVENTS (R130). -/
  | results (stack : List (Nat × List Byte)) (mem : Memory) (pc : Nat) (events : List Event)
  /-- Debug mode, Halted: EVENTS (R131). -/
  | walk (events : List Event)
  /-- Faulted: the fault record, and no final stack (R130); EVENTS, which hold a faulted walk's records (R131). -/
  | faultReport (cause : BitVec 8) (pc : Nat) (opcode : Byte) (events : List Event)
deriving DecidableEq, Repr

/-- Stack entries from the top, labelled from index `k`: the top has depth index 0 (R130, 92_eei_decisions.md D15). -/
def stackEntries (k : Nat) : List Word → List (Nat × List Byte)
  | [] => []
  | v :: rest => (k, wordToBe32 v) :: stackEntries (k + 1) rest

/-- The host's readout. -/
def State.readout (s : State) : Readout :=
  match s.runState with
  | .running => .notEnded
  | .faulted => .faultReport s.faultCause s.faultPc s.faultOpcode s.events
  | .halted =>
    match s.mode with
    | .run => .results (stackEntries 0 s.stack) s.mem s.pc s.events
    | .debug => .walk s.events

end Sys2Proof.Machine
end

