-- ==== Sys2Proof/Safety.lean ====
section
/-!
DEFINITION. The words claims are stated in: when a run has ended (70_reset_and_hazards.md R129), staying within the
optional limits, the invariants of the machine, and the walk that debug mode performs (40_control.md R84).
-/
namespace Sys2Proof.Machine

/-! ### The end of a run -/

/-- A run has ended (70_reset_and_hazards.md R129). -/
abbrev State.ended (s : State) : Prop := s.runState ≠ .running

/-- A run has ended normally (70_reset_and_hazards.md R129). -/
abbrev State.endedNormally (s : State) : Prop := s.runState = .halted

/-! ### Limits -/

/-- The stack is no deeper than STACK_LIMIT. It is part of `State.Inv`, so every state a run reaches meets it. -/
def State.withinStackLimit (s : State) : Prop :=
  ∀ n, s.params.stackLimit = some n → s.depth ≤ n

/-- A required size `r` does not exceed MEM_LIMIT. -/
def State.fitsMemLimit (s : State) (r : Nat) : Prop :=
  ∀ l, s.params.memLimit = some l → r ≤ l

/-! ### The invariants -/

/-- pc's range (10_state.md R20): at most CODE_LEN, or CODE_LEN + 32 under ZeroPad. -/
def State.pcInRange (s : State) : Prop :=
  s.pc ≤ s.codeLen + (if s.params.oobImmPolicy = .zeroPad then 32 else 0)

/-- The fault record is written exactly by fault entry, and names the instruction at pc (60_exceptions.md R110, R114,
R115). -/
def State.faultRecordInv (s : State) : Prop :=
  if s.runState = .faulted then 1 ≤ s.faultCause.toNat ∧ s.faultCause.toNat ≤ 4 ∧ s.faultPc = s.pc
  else s.faultCause = 0 ∧ s.faultPc = 0 ∧ s.faultOpcode = 0

/-- Debug mode never touches the stack or memory, which reset leaves empty (40_control.md R84). -/
def State.debugUntouched (s : State) : Prop :=
  s.mode = .debug → s.stack = [] ∧ s.mem = Memory.empty

/-- What holds of every state of every run. -/
structure State.Inv (s : State) : Prop where
  memWf : s.mem.wf
  stack : s.withinStackLimit
  memory : s.fitsMemLimit s.mem.size
  pc : s.pcInRange
  faultRecord : s.faultRecordInv
  debug : s.debugUntouched

/-- Records found at strictly rising addresses, all below `pc`; END's, which has no address, is not among them. -/
def recordsBelow (es : List Event) (pc : Nat) : Prop :=
  es.Pairwise (fun d e => ∃ a b, d.addr = some a ∧ e.addr = some b ∧ a < b) ∧
    ∀ e ∈ es, ∃ a, e.addr = some a ∧ a < pc

/-- What EVENTS holds (10_state.md R31, 70_reset_and_hazards.md R131): in run mode UNKNOWN records only; in debug mode the
records of the walk, with END's last exactly when the walk has halted; each in increasing address order. -/
def State.eventsInv (s : State) : Prop :=
  if s.mode = .run then recordsBelow s.events s.pc ∧ ∀ e ∈ s.events, e.kind = .unknown
  else if s.runState = .halted then
    ∃ es, s.events = es ++ [OpRecord.endOfCode.event] ∧ recordsBelow es s.pc
  else recordsBelow s.events s.pc

/-! ### The disassembly walk -/

/-- The records a walk over the code from `pc` yields, in at most `fuel` decodes (40_control.md R84). -/
def walk (policy : OobImmPolicy) (code : List Byte) : Nat → Nat → List Event
  | 0, _ => []
  | fuel + 1, pc =>
    match fetchDecode policy code pc with
    | .endOfCode => [OpRecord.endOfCode.event]
    | .outOfBounds _ => []
    | .op i pcNext => (i.record pc).event :: walk policy code fuel pcNext

end Sys2Proof.Machine
end

