-- ==== Sys2Proof/Certificates/Slice0/Obligations.lean ====
section
/-!
DEFINITION. The statements for the provers. Each docstring names the rules of spec/ it formalises. "Raises" is the next
state of fault entry (60_exceptions.md R114): the state the step started from, with RUN_STATE and the fault record
written.
-/

open Sys2Proof Sys2Proof.Machine

/-! ### Bytes, encoding and decoding -/

/-- 00_scope.md R15: `be_to_word` is the sum, `word_to_be32` the 32 bytes `v[255-8i : 248-8i]`, and the latter is the
one sequence of 32 bytes the former takes back to v. -/
def Obligations.BigEndianConversionsAreInverse : Prop :=
  (∀ bs : List Byte, bs.length ≤ 32 →
    (beToWord bs).toNat = ∑ i : Fin bs.length, (bs[i]).toNat * 256 ^ (bs.length - 1 - i.val)) ∧
  ∀ v : Word, (wordToBe32 v).length = 32 ∧
    (∀ i < 32, (wordToBe32 v)[i]? = some (v.extractLsb' (248 - 8 * i) 8)) ∧
    beToWord (wordToBe32 v) = v ∧
    ∀ bs : List Byte, bs.length = 32 → beToWord bs = v → bs = wordToBe32 v

/-- 30_encoding.md R63, R64, R69: no bit of an encoding is dropped. -/
def Obligations.EncodeThenDecodeGivesInstrBack : Prop :=
  ∀ (i : Instr) (rest : List Byte), i.wf = true → decode (encode i ++ rest) = .instr i rest

/-- 30_encoding.md R63 to R67: a decoded instruction is well formed and its encoding is exactly the bytes it was read
from, as many as its width. -/
def Obligations.DecodeThenEncodeGivesBytesBack : Prop :=
  ∀ (bs : List Byte) (i : Instr) (rest : List Byte), decode bs = .instr i rest →
    i.wf = true ∧ encode i ++ rest = bs ∧ (encode i).length = i.width

/-- 30_encoding.md R65, R66: the kind and the number of immediate bytes of every opcode byte. -/
def Obligations.OpcodeMapOfEveryByte : Prop :=
  ∀ rest : List Byte,
    decode (0x00 :: rest) = .instr .stop rest ∧
    decode (0x01 :: rest) = .instr .add rest ∧
    decode (0x02 :: rest) = .instr .mul rest ∧
    decode (0x51 :: rest) = .instr .mload rest ∧
    decode (0x52 :: rest) = .instr .mstore rest ∧
    decode (0x53 :: rest) = .instr .mstore8 rest ∧
    (∀ b : Byte, decode (0x60 :: b :: rest) = .instr (.push1 b) rest) ∧
    (∀ b c : Byte, decode (0x61 :: b :: c :: rest) = .instr (.push2 (b ++ c)) rest) ∧
    (∀ imm : List Byte, imm.length = 32 → decode (0x7f :: (imm ++ rest)) = .instr (.push32 (beToWord imm)) rest) ∧
    (∀ t : Byte, (0x03 ≤ t.toNat ∧ t.toNat ≤ 0x50) ∨ (0x54 ≤ t.toNat ∧ t.toNat ≤ 0x5f) ∨
        (0x62 ≤ t.toNat ∧ t.toNat ≤ 0x7e) ∨ 0x80 ≤ t.toNat →
      decode (t :: rest) = .instr (.unknown t) rest)

/-- 30_encoding.md R70: PUSH2 reads two distinct consecutive bytes, the first the more significant. -/
def Obligations.Push2ReadsTwoDistinctBytes : Prop :=
  ∀ (hi lo : Byte) (rest : List Byte), ∃ v : BitVec 16,
    decode (0x61 :: hi :: lo :: rest) = .instr (.push2 v) rest ∧
    v.extractLsb' 8 8 = hi ∧ v.extractLsb' 0 8 = lo ∧
    (Instr.push2 v).imm.toNat = hi.toNat * 256 + lo.toNat

/-- 30_encoding.md R69: the immediate is the N bytes after the opcode byte, read big-endian and zero-extended; with
N = 0 the record's imm is 0. -/
def Obligations.ImmediateIsBigEndianZeroExtended : Prop :=
  ∀ (t : Byte) (imm rest : List Byte),
    imm.length = (if t = 0x60 then 1 else if t = 0x61 then 2 else if t = 0x7f then 32 else 0) →
    ∃ i : Instr, decode (t :: (imm ++ rest)) = .instr i rest ∧ i.opcode = t ∧ i.imm.toNat = beToNat imm

/-- 30_encoding.md R64, R65: words written out from the encoding table (a sanity check of the decoder). -/
def Obligations.WrittenOutWordsDecode : Prop :=
  decode [0b00000001#8] = .instr .add [] ∧
  decode [0b01010010#8] = .instr .mstore [] ∧
  decode [0b01100000#8, 0b00101010#8] = .instr (.push1 0x2a) [] ∧
  decode [0b01100001#8, 0b00010010#8, 0b00110100#8] = .instr (.push2 0x1234) [] ∧
  decode [0b01100010#8, 0b00000001#8] = .instr (.unknown 0x62) [0b00000001#8]

/-! ### Fetch-decode -/

/-- 30_encoding.md R71, R72: inside the code, under every policy, fetch-decode returns the instruction whose bytes stand
at pc, and pc plus its width. -/
def Obligations.FetchDecodeReadsInstrAtPc : Prop :=
  ∀ (policy : OobImmPolicy) (front rest : List Byte) (i : Instr), i.wf = true →
    fetchDecode policy (front ++ encode i ++ rest) front.length = .op i (front.length + i.width)

/-- 30_encoding.md R73: END is the decode result at or past the end of the code, no byte value decodes as END, and its
record has no `at`, tag or immediate. -/
def Obligations.EndIsDecodedExactlyPastTheCode : Prop :=
  (∀ (policy : OobImmPolicy) (code : List Byte) (pc : Nat), code.length ≤ pc →
    fetchDecode policy code pc = .endOfCode) ∧
  (∀ policy : OobImmPolicy, fetchDecode policy [] 0 = .endOfCode) ∧
  (∀ (policy : OobImmPolicy) (code : List Byte) (pc : Nat), policy ≠ .endRun → pc < code.length →
    fetchDecode policy code pc ≠ .endOfCode) ∧
  (∀ (b : Byte) (bs : List Byte), decode (b :: bs) ≠ .noBytes) ∧
  OpRecord.endOfCode.addr = none ∧ OpRecord.endOfCode.tag = none ∧ OpRecord.endOfCode.imm = 0

/-- 30_encoding.md R74: a push whose immediate runs past the end, under each policy; under ZeroPad the missing, least
significant, bytes read as 0x00 and the next decode yields END. -/
def Obligations.TruncatedImmediateFollowsPolicy : Prop :=
  ∀ (front avail : List Byte) (t : Byte) (n : Nat),
    (t = 0x60 ∧ n = 1) ∨ (t = 0x61 ∧ n = 2) ∨ (t = 0x7f ∧ n = 32) → avail.length < n →
    fetchDecode .fault (front ++ t :: avail) front.length = .outOfBounds t ∧
    fetchDecode .endRun (front ++ t :: avail) front.length = .endOfCode ∧
    (∃ i : Instr, fetchDecode .zeroPad (front ++ t :: avail) front.length = .op i (front.length + 1 + n) ∧
      i.opcode = t ∧ i.width = 1 + n ∧
      i.imm = beToWord (avail ++ List.replicate (n - avail.length) 0x00)) ∧
    fetchDecode .zeroPad (front ++ t :: avail) (front.length + 1 + n) = .endOfCode

/-! ### The step -/

/-- 40_control.md R80: in run mode a step is the meaning of the instruction at pc. The step adds nothing around it:
`exec` checks the operands, grows memory and moves pc itself. -/
def Obligations.RunStepExecutesInstrAtPc : Prop :=
  ∀ (s : State) (i : Instr) (rest : List Byte), s.runState = .running → s.mode = .run → i.wf = true →
    s.code.drop s.pc = encode i ++ rest → step s = exec i s

/-- 40_control.md R82: at pc >= CODE_LEN a run-mode step halts, and changes nothing else; with CODE_LEN = 0 the first
step halts with S empty and MSIZE = 0. -/
def Obligations.RunStepHaltsAtEndOfCode : Prop :=
  (∀ s : State, s.runState = .running → s.mode = .run → s.codeLen ≤ s.pc →
    step s = .next { s with runState := .halted }) ∧
  ∀ params : Params, ∃ t : State, step (State.resetWith [] .run params) = .next t ∧
    t.runState = .halted ∧ t.stack = [] ∧ t.mem.size = 0 ∧ t.pc = 0 ∧ t.events = []

/-- 40_control.md R84: a debug-mode step appends the record of the instruction at pc and moves pc by its width; at the
end of the code it appends END's record and halts, pc unchanged. -/
def Obligations.DebugStepEmitsRecordOfInstrAtPc : Prop :=
  (∀ (s : State) (i : Instr) (rest : List Byte), s.runState = .running → s.mode = .debug → i.wf = true →
    s.code.drop s.pc = encode i ++ rest →
    step s = .next { s with
      events := s.events ++ [{ kind := i.kind, addr := some s.pc, tag := some i.opcode, imm := i.imm }]
      pc := s.pc + i.width }) ∧
  ∀ s : State, s.runState = .running → s.mode = .debug → s.codeLen ≤ s.pc →
    step s = .next { s with
      events := s.events ++ [{ kind := .endOfCode, addr := none, tag := none, imm := 0 }]
      runState := .halted }

/-- 40_control.md R84: debug mode never changes S, M or MSIZE, and the only fault it raises is OutOfBoundsImmediate,
under the policy Fault. -/
def Obligations.DebugStepTouchesNoStackOrMemory : Prop :=
  ∀ s t : State, s.mode = .debug → step s = .next t →
    t.stack = s.stack ∧ t.mem = s.mem ∧
    (t.runState = .faulted → t.faultCause = 2 ∧ s.params.oobImmPolicy = .fault)

/-- 40_control.md R84: debug mode never reads S, M or MSIZE: a walk with another stack and another memory is the same
walk. -/
def Obligations.DebugStepIsBlindToStackAndMemory : Prop :=
  ∀ (s t : State) (stack : List Word) (mem : Memory), s.mode = .debug → step s = .next t →
    step { s with stack := stack, mem := mem } = .next { t with stack := stack, mem := mem }

/-- 30_encoding.md R74, 40_control.md R80, R84, 92_eei_decisions.md D23: a truncated push at pc, in both modes, under
each policy. -/
def Obligations.TruncatedPushStepInBothModes : Prop :=
  ∀ (s : State) (t : Byte) (n : Nat) (avail : List Byte), s.runState = .running →
    s.code.drop s.pc = t :: avail →
    (t = 0x60 ∧ n = 1) ∨ (t = 0x61 ∧ n = 2) ∨ (t = 0x7f ∧ n = 32) → avail.length < n →
    (s.params.oobImmPolicy = .fault →
      step s = .next { s with runState := .faulted, faultCause := 2, faultPc := s.pc, faultOpcode := t }) ∧
    (s.params.oobImmPolicy = .endRun → s.mode = .run → step s = .next { s with runState := .halted }) ∧
    (s.params.oobImmPolicy = .endRun → s.mode = .debug →
      step s = .next { s with
        events := s.events ++ [{ kind := .endOfCode, addr := none, tag := none, imm := 0 }]
        runState := .halted }) ∧
    (s.params.oobImmPolicy = .zeroPad → ∃ i : Instr, i.opcode = t ∧
      i.imm = beToWord (avail ++ List.replicate (n - avail.length) 0x00) ∧
      (s.mode = .run → step s = exec i s) ∧
      (s.mode = .debug →
        step s = .next { s with
          events := s.events ++ [{ kind := i.kind, addr := some s.pc, tag := some t, imm := i.imm }]
          pc := s.pc + 1 + n }))

/-- 60_exceptions.md R104, R105: a Running block always has a next state; no instruction ends in a model fault or a
refusal, since every step grows memory before it accesses it (20_memory.md R48). -/
def Obligations.RunningBlockAlwaysHasNextState : Prop :=
  (∀ (i : Instr) (s : State), ∃ t : State, exec i s = .next t) ∧
  ∀ s : State, s.runState = .running → ∃ t : State, step s = .next t

/-- 40_control.md R80, 60_exceptions.md R116: no step is taken from Halted or Faulted. (That this is a stop of the
model, under these names, is the model's choice, log 5.) -/
def Obligations.NoStepFromHaltedOrFaulted : Prop :=
  ∀ s : State, (s.runState = .halted → step s = .fault .noStepFromHalted) ∧
    (s.runState = .faulted → step s = .fault .noStepFromFaulted)

/-! ### The ALU and its instructions -/

/-- 41_alu.md R91: the two operations of the ALU, modulo 2^256. -/
def Obligations.AluResultsAreModulo : Prop :=
  ∀ a b : Word, (aluAdd a b).toNat = (a.toNat + b.toNat) % 2 ^ 256 ∧
    (aluMul a b).toNat = (a.toNat * b.toNat) % 2 ^ 256

/-- 41_alu.md R92: commutativity, and the results at the edges. -/
def Obligations.AluCommutesAndWraps : Prop :=
  (∀ a b : Word, aluAdd a b = aluAdd b a ∧ aluMul a b = aluMul b a) ∧
  aluAdd (BitVec.allOnes 256) 1 = 0 ∧ (∀ a : Word, aluMul a 0 = 0) ∧
  aluMul (BitVec.twoPow 256 128) (BitVec.twoPow 256 128) = 0 ∧
  aluMul (BitVec.allOnes 256) (BitVec.allOnes 256) = 1

/-- 41_alu.md R93: ADD. -/
def Obligations.AddReplacesTopTwoBySum : Prop :=
  encode .add = [0x01] ∧
  (∀ (s : State) (a b : Word) (rest : List Word), s.stack = a :: b :: rest → s.withinStackLimit →
    ∃ r : Word, r.toNat = (a.toNat + b.toNat) % 2 ^ 256 ∧
      exec .add s = .next { s with pc := s.pc + 1, stack := r :: rest }) ∧
  ∀ s : State, s.depth < 2 →
    exec .add s = .next { s with runState := .faulted, faultCause := 1, faultPc := s.pc, faultOpcode := 0x01 }

/-- 41_alu.md R94: MUL. -/
def Obligations.MulReplacesTopTwoByProduct : Prop :=
  encode .mul = [0x02] ∧
  (∀ (s : State) (a b : Word) (rest : List Word), s.stack = a :: b :: rest → s.withinStackLimit →
    ∃ r : Word, r.toNat = (a.toNat * b.toNat) % 2 ^ 256 ∧
      exec .mul s = .next { s with pc := s.pc + 1, stack := r :: rest }) ∧
  ∀ s : State, s.depth < 2 →
    exec .mul s = .next { s with runState := .faulted, faultCause := 1, faultPc := s.pc, faultOpcode := 0x02 }

/-! ### Memory and its instructions -/

/-- 20_memory.md R44: Grow zero-fills from MSIZE up, never shrinks, and is a no-op when memory is large enough. -/
def Obligations.GrowZeroFillsAndNeverShrinks : Prop :=
  ∀ (m : Memory) (n : Nat),
    (n ≤ m.size → m.grow n = m) ∧
    (m.size < n → (m.grow n).size = n ∧ ∀ a : Nat,
      (a < m.size → (m.grow n).byte? a = m.byte? a) ∧
      (m.size ≤ a → a < n → (m.grow n).byte? a = some 0x00) ∧
      (n ≤ a → (m.grow n).byte? a = none))

/-- 42_memory_ops.md R97: MLOAD. Bytes beyond the old MSIZE read as 0x00; MSIZE becomes max(MSIZE, offset + 32), and no
byte that was there changes. -/
def Obligations.MloadPushesBigEndianWord : Prop :=
  encode .mload = [0x51] ∧
  (∀ (s : State) (offset : Word) (rest : List Word), s.stack = offset :: rest → s.withinStackLimit →
    s.fitsMemLimit (offset.toNat + 32) →
    ∃ (v : Word) (m : Memory),
      (∀ k < 32, v.extractLsb' (248 - 8 * k) 8 = (s.mem.byte? (offset.toNat + k)).getD 0x00) ∧
      m.size = max s.mem.size (offset.toNat + 32) ∧
      (∀ a : Nat, m.byte? a = if a < s.mem.size then s.mem.byte? a else if a < m.size then some 0x00 else none) ∧
      exec .mload s = .next { s with pc := s.pc + 1, stack := v :: rest, mem := m }) ∧
  (∀ s : State, s.depth = 0 →
    exec .mload s = .next { s with runState := .faulted, faultCause := 1, faultPc := s.pc, faultOpcode := 0x51 }) ∧
  ∀ (s : State) (offset : Word) (rest : List Word) (l : Nat), s.stack = offset :: rest → s.withinStackLimit →
    s.params.memLimit = some l → l < offset.toNat + 32 →
    exec .mload s = .next { s with runState := .faulted, faultCause := 3, faultPc := s.pc, faultOpcode := 0x51 }

/-- 42_memory_ops.md R98: MSTORE. MSIZE becomes max(MSIZE, offset + 32); the word's bytes lie big-endian at offset ..
offset + 31, every other byte is as before, or 0x00 if it is new. -/
def Obligations.MstoreWritesBigEndianWord : Prop :=
  encode .mstore = [0x52] ∧
  (∀ (s : State) (offset value : Word) (rest : List Word), s.stack = offset :: value :: rest → s.withinStackLimit →
    s.fitsMemLimit (offset.toNat + 32) →
    ∃ m : Memory, m.size = max s.mem.size (offset.toNat + 32) ∧
      (∀ i < 32, m.byte? (offset.toNat + i) = some (value.extractLsb' (248 - 8 * i) 8)) ∧
      (∀ a : Nat, a < offset.toNat ∨ offset.toNat + 32 ≤ a →
        m.byte? a = if a < s.mem.size then s.mem.byte? a else if a < m.size then some 0x00 else none) ∧
      exec .mstore s = .next { s with pc := s.pc + 1, stack := rest, mem := m }) ∧
  (∀ s : State, s.depth < 2 →
    exec .mstore s = .next { s with runState := .faulted, faultCause := 1, faultPc := s.pc, faultOpcode := 0x52 }) ∧
  ∀ (s : State) (offset value : Word) (rest : List Word) (l : Nat), s.stack = offset :: value :: rest →
    s.withinStackLimit → s.params.memLimit = some l → l < offset.toNat + 32 →
    exec .mstore s = .next { s with runState := .faulted, faultCause := 3, faultPc := s.pc, faultOpcode := 0x52 }

/-- 42_memory_ops.md R99: MSTORE8 stores value[7:0] at offset; MSIZE becomes max(MSIZE, offset + 1). -/
def Obligations.Mstore8WritesLowByte : Prop :=
  encode .mstore8 = [0x53] ∧
  (∀ (s : State) (offset value : Word) (rest : List Word), s.stack = offset :: value :: rest → s.withinStackLimit →
    s.fitsMemLimit (offset.toNat + 1) →
    ∃ m : Memory, m.size = max s.mem.size (offset.toNat + 1) ∧
      m.byte? offset.toNat = some (value.extractLsb' 0 8) ∧
      (∀ a : Nat, a ≠ offset.toNat →
        m.byte? a = if a < s.mem.size then s.mem.byte? a else if a < m.size then some 0x00 else none) ∧
      exec .mstore8 s = .next { s with pc := s.pc + 1, stack := rest, mem := m }) ∧
  (∀ s : State, s.depth < 2 →
    exec .mstore8 s = .next { s with runState := .faulted, faultCause := 1, faultPc := s.pc, faultOpcode := 0x53 }) ∧
  ∀ (s : State) (offset value : Word) (rest : List Word) (l : Nat), s.stack = offset :: value :: rest →
    s.withinStackLimit → s.params.memLimit = some l → l < offset.toNat + 1 →
    exec .mstore8 s = .next { s with runState := .faulted, faultCause := 3, faultPc := s.pc, faultOpcode := 0x53 }

/-- 20_memory.md R42, R59, R132: a word stored and then loaded from the same offset is the word. -/
def Obligations.StoreThenLoadReturnsWord : Prop :=
  ∀ (s : State) (offset value : Word) (rest : List Word), s.stack = offset :: value :: offset :: rest →
    s.withinStackLimit → s.fitsMemLimit (offset.toNat + 32) →
    ∃ t u : State, exec .mstore s = .next t ∧ exec .mload t = .next u ∧ u.stack = value :: rest ∧
      u.mem = t.mem

/-- 20_memory.md R43: a byte MSTORE8 writes at a is bits [8(31-(a-b))+7 : 8(31-(a-b))] of the word MLOAD then reads at
b, for b <= a <= b + 31. -/
def Obligations.StoredByteSeenInLoadedWord : Prop :=
  ∀ (s : State) (a b value : Word) (rest : List Word), s.stack = a :: value :: b :: rest →
    s.withinStackLimit → s.fitsMemLimit (b.toNat + 32) → b.toNat ≤ a.toNat → a.toNat ≤ b.toNat + 31 →
    ∃ (t u : State) (w : Word), exec .mstore8 s = .next t ∧ exec .mload t = .next u ∧ u.stack = w :: rest ∧
      w.extractLsb' (8 * (31 - (a.toNat - b.toNat))) 8 = value.extractLsb' 0 8

/-- 20_memory.md R49, R50: what a completed run-mode step leaves in MSIZE: the maximum of the old MSIZE and the
instruction's required size. -/
def Obligations.MsizeIsMaxWithRequiredSize : Prop :=
  ∀ (s t : State) (i : Instr) (n : Nat), s.runState = .running → s.mode = .run → s.fetch = .op i n →
    step s = .next t → t.runState ≠ .faulted →
    ((i = .mload ∨ i = .mstore) →
      ∃ offset : Word, s.stack.head? = some offset ∧ t.mem.size = max s.mem.size (offset.toNat + 32)) ∧
    (i = .mstore8 →
      ∃ offset : Word, s.stack.head? = some offset ∧ t.mem.size = max s.mem.size (offset.toNat + 1)) ∧
    (i ≠ .mload → i ≠ .mstore → i ≠ .mstore8 → t.mem.size = s.mem.size)

/-- 20_memory.md R52: a step that changes MSIZE or any byte of M runs, in run mode, a memory instruction that does not
fault. -/
def Obligations.OnlyMemoryInstructionsChangeMemory : Prop :=
  ∀ s t : State, step s = .next t →
    (t.mem.size ≠ s.mem.size ∨ ∃ a : Nat, t.mem.byte? a ≠ s.mem.byte? a) →
    s.mode = .run ∧ t.runState ≠ .faulted ∧
      ∃ (i : Instr) (n : Nat), s.fetch = .op i n ∧ (i = .mload ∨ i = .mstore ∨ i = .mstore8)

/-- Log 8 (the model's representation of 20_memory.md R40): two canonical memories of one size that read alike are equal
data. -/
def Obligations.CanonicalMemoriesReadAlikeAreEqual : Prop :=
  ∀ m n : Memory, m.wf → n.wf → m.size = n.size → (∀ a : Nat, m.byte? a = n.byte? a) → m = n

/-! ### Pushes -/

/-- 43_push.md R100, R101, 60_exceptions.md R109: PUSH1. -/
def Obligations.Push1PushesOneByte : Prop :=
  ∀ (s : State) (imm : BitVec 8),
    ((∀ n, s.params.stackLimit = some n → s.depth < n) →
      ∃ v : Word, v.toNat = imm.toNat ∧ exec (.push1 imm) s = .next { s with pc := s.pc + 2, stack := v :: s.stack }) ∧
    (∀ n, s.params.stackLimit = some n → n ≤ s.depth →
      exec (.push1 imm) s =
        .next { s with runState := .faulted, faultCause := 4, faultPc := s.pc, faultOpcode := 0x60 })

/-- 43_push.md R100, R102, 60_exceptions.md R109: PUSH2. -/
def Obligations.Push2PushesTwoBytes : Prop :=
  ∀ (s : State) (imm : BitVec 16),
    ((∀ n, s.params.stackLimit = some n → s.depth < n) →
      ∃ v : Word, v.toNat = imm.toNat ∧ exec (.push2 imm) s = .next { s with pc := s.pc + 3, stack := v :: s.stack }) ∧
    (∀ n, s.params.stackLimit = some n → n ≤ s.depth →
      exec (.push2 imm) s =
        .next { s with runState := .faulted, faultCause := 4, faultPc := s.pc, faultOpcode := 0x61 })

/-- 43_push.md R100, R103, 60_exceptions.md R109: PUSH32. -/
def Obligations.Push32PushesWholeWord : Prop :=
  ∀ (s : State) (imm : Word),
    ((∀ n, s.params.stackLimit = some n → s.depth < n) →
      exec (.push32 imm) s = .next { s with pc := s.pc + 33, stack := imm :: s.stack }) ∧
    (∀ n, s.params.stackLimit = some n → n ≤ s.depth →
      exec (.push32 imm) s =
        .next { s with runState := .faulted, faultCause := 4, faultPc := s.pc, faultOpcode := 0x7f })

/-! ### STOP and UNKNOWN -/

/-- 40_control.md R85, R89: STOP halts run mode, with pc at + 1 and nothing else changed; in debug mode it has no effect
but its record, and the walk continues. -/
def Obligations.StopHaltsRunModeOnly : Prop :=
  encode .stop = [0x00] ∧
  (∀ s : State, s.withinStackLimit → exec .stop s = .next { s with pc := s.pc + 1, runState := .halted }) ∧
  (∀ (s : State) (rest : List Byte), s.withinStackLimit → s.runState = .running → s.mode = .run →
    s.code.drop s.pc = 0x00 :: rest → step s = .next { s with pc := s.pc + 1, runState := .halted }) ∧
  ∀ (s : State) (rest : List Byte), s.runState = .running → s.mode = .debug → s.code.drop s.pc = 0x00 :: rest →
    step s = .next { s with
      pc := s.pc + 1
      events := s.events ++ [{ kind := .stop, addr := some s.pc, tag := some 0x00, imm := 0 }] }

/-- 40_control.md R86, 60_exceptions.md R112: UNKNOWN is a no-op with a report: pc at + 1, and the record in EVENTS. -/
def Obligations.UnknownIsReportedNoOp : Prop :=
  ∀ t : Byte, encode (.unknown t) = [t] ∧
    (∀ s : State, s.withinStackLimit →
      exec (.unknown t) s = .next { s with
        pc := s.pc + 1
        events := s.events ++ [{ kind := .unknown, addr := some s.pc, tag := some t, imm := 0 }] }) ∧
    ((Instr.unknown t).wf = true → ∀ (s : State) (rest : List Byte), s.runState = .running → s.mode = .debug →
      s.code.drop s.pc = t :: rest →
      step s = .next { s with
        pc := s.pc + 1
        events := s.events ++ [{ kind := .unknown, addr := some s.pc, tag := some t, imm := 0 }] })

/-! ### Faults -/

/-- 60_exceptions.md R106: StackUnderflow, exactly when the instruction pops more words than the stack holds, by the five
popping kinds and nothing else, with the record it writes. -/
def Obligations.StackUnderflowExactlyOnTooFewOperands : Prop :=
  (∀ s : State,
    (s.depth < 2 → ∀ i ∈ [Instr.add, .mul, .mstore, .mstore8],
      exec i s = .next { s with runState := .faulted, faultCause := 1, faultPc := s.pc, faultOpcode := i.opcode }) ∧
    (s.depth < 1 →
      exec .mload s = .next { s with runState := .faulted, faultCause := 1, faultPc := s.pc, faultOpcode := 0x51 })) ∧
  ∀ (s t : State) (i : Instr), s.runState = .running → exec i s = .next t → t.runState = .faulted →
    t.faultCause = 1 →
    (i ∈ [Instr.add, .mul, .mstore, .mstore8] ∧ s.depth < 2) ∨ (i = .mload ∧ s.depth < 1)

/-- 60_exceptions.md R107: OutOfBoundsImmediate, exactly under the policy Fault and by a push whose immediate runs past
the end of the code, in both modes, with the record it writes. -/
def Obligations.OutOfBoundsImmediateExactlyOnTruncatedPush : Prop :=
  ∀ s : State, s.runState = .running →
    ((∃ t : State, step s = .next t ∧ t.runState = .faulted ∧ t.faultCause = 2) ↔
      s.params.oobImmPolicy = .fault ∧ ∃ (tag : Byte) (n : Nat) (avail : List Byte),
        s.code.drop s.pc = tag :: avail ∧ avail.length < n ∧
        ((tag = 0x60 ∧ n = 1) ∨ (tag = 0x61 ∧ n = 2) ∨ (tag = 0x7f ∧ n = 32))) ∧
    ∀ t : State, step s = .next t → t.runState = .faulted → t.faultCause = 2 →
      t.faultPc = s.pc ∧ s.code[s.pc]? = some t.faultOpcode

/-- 60_exceptions.md R108: MemoryLimit, exactly when the required size of a memory instruction exceeds MEM_LIMIT, with
the record it writes; with MEM_LIMIT = none it is never raised. (The operand checks come first, R113.) -/
def Obligations.MemoryLimitExactlyOnTooLargeAccess : Prop :=
  (∀ (s : State) (i : Instr) (offset : Word) (l : Nat), s.withinStackLimit → s.params.memLimit = some l →
    s.stack.head? = some offset →
    (i = .mload ∧ l < offset.toNat + 32) ∨ (i = .mstore ∧ 2 ≤ s.depth ∧ l < offset.toNat + 32) ∨
      (i = .mstore8 ∧ 2 ≤ s.depth ∧ l < offset.toNat + 1) →
    exec i s = .next { s with runState := .faulted, faultCause := 3, faultPc := s.pc, faultOpcode := i.opcode }) ∧
  ∀ (s t : State) (i : Instr), s.runState = .running → exec i s = .next t → t.runState = .faulted →
    t.faultCause = 3 →
    ∃ (offset : Word) (l : Nat), s.params.memLimit = some l ∧ s.stack.head? = some offset ∧
      (((i = .mload ∨ i = .mstore) ∧ l < offset.toNat + 32) ∨ (i = .mstore8 ∧ l < offset.toNat + 1))

/-- 60_exceptions.md R109: StackOverflow, when one of the pushing kinds would leave more than n words; from a state with
depth <= n only the pushes reach it, at depth = n; with STACK_LIMIT = none it is never raised. -/
def Obligations.StackOverflowOnlyByPushesAtTheLimit : Prop :=
  (∀ (s : State) (i : Instr) (n : Nat), i.kind ∈ [Kind.push1, .push2, .push32, .add, .mul, .mload] →
    s.params.stackLimit = some n → pops i ≤ s.depth → n < s.depth - pops i + pushes i →
    exec i s = .next { s with runState := .faulted, faultCause := 4, faultPc := s.pc, faultOpcode := i.opcode }) ∧
  ∀ (s t : State) (i : Instr), s.withinStackLimit → s.runState = .running → exec i s = .next t →
    t.runState = .faulted → t.faultCause = 4 →
    i.kind ∈ [Kind.push1, .push2, .push32] ∧ s.params.stackLimit = some s.depth

/-- 60_exceptions.md R113: the order in which coinciding faults are reported, StackOverflow for the kinds of R109; and
underflow and overflow never hold together, whatever the depth and the limit (the sum of R81 taken on integers). -/
def Obligations.FaultPriorityOrder : Prop :=
  (∀ s : State, s.runState = .running → s.pc < s.codeLen → ∀ tag : Byte, s.fetch = .outOfBounds tag →
    step s = .next { s with runState := .faulted, faultCause := 2, faultPc := s.pc, faultOpcode := tag }) ∧
  (∀ (s t : State) (i : Instr), s.runState = .running → exec i s = .next t → t.runState = .faulted →
    (s.depth < pops i → t.faultCause = 1) ∧
    (i.kind ∈ [Kind.push1, .push2, .push32, .add, .mul, .mload] → pops i ≤ s.depth →
      (∃ n, s.params.stackLimit = some n ∧ n < s.depth - pops i + pushes i) → t.faultCause = 4) ∧
    (pops i ≤ s.depth → (∀ n, s.params.stackLimit = some n → s.depth - pops i + pushes i ≤ n) → t.faultCause = 3)) ∧
  ∀ (i : Instr) (depth n : Nat), depth < pops i →
    ¬ ((n : Int) < (depth : Int) - (pops i : Int) + (pushes i : Int))

/-- 60_exceptions.md R114, R115: a step that ends Faulted keeps every write of earlier steps and none of its own: only
RUN_STATE and the fault record change, which name a cause, the pc of the instruction and its opcode byte; and no further
step is taken. (By which named stop the model says the last is NoStepFromHaltedOrFaulted's, log 5.) -/
def Obligations.FaultEntryIsPrecise : Prop :=
  ∀ s t : State, step s = .next t → t.runState = .faulted →
    (∃ (c : Cause) (tag : Byte), s.code[s.pc]? = some tag ∧
      t = { s with runState := .faulted, faultCause := c.code, faultPc := s.pc, faultOpcode := tag }) ∧
    ∀ u : State, step t ≠ .next u

/-- 60_exceptions.md R110: the codes of the causes; 0 is the reset value; 5 to 255 are never written. -/
def Obligations.FaultCauseCodes : Prop :=
  Cause.stackUnderflow.code = 1 ∧ Cause.outOfBoundsImmediate.code = 2 ∧ Cause.memoryLimit.code = 3 ∧
  Cause.stackOverflow.code = 4 ∧ State.reset.faultCause = 0 ∧
  ∀ s t : State, step s = .next t → t.faultCause = s.faultCause ∨ (1 ≤ t.faultCause.toNat ∧ t.faultCause.toNat ≤ 4)

/-! ### Frames and whole-machine rules -/

/-- The frame of STOP, ADD, MUL, the pushes and UNKNOWN when they do not fault (41_alu.md R95, 43_push.md R100, 40_control.md
R85, R86): nothing but pc, the top of the stack, RUN_STATE (STOP) and EVENTS (UNKNOWN) changes; no byte of memory does. -/
def Obligations.FrameOfNonMemoryInstructions : Prop :=
  ∀ (s t : State) (i : Instr), i ≠ .mload → i ≠ .mstore → i ≠ .mstore8 → s.runState = .running →
    exec i s = .next t → t.runState ≠ .faulted →
    t.code = s.code ∧ t.mode = s.mode ∧ t.params = s.params ∧
    t.faultCause = s.faultCause ∧ t.faultPc = s.faultPc ∧ t.faultOpcode = s.faultOpcode ∧
    (i ≠ .stop → t.runState = s.runState) ∧
    ((∀ tag : Byte, i ≠ .unknown tag) → t.events = s.events) ∧
    t.mem.size = s.mem.size ∧ (∀ a : Nat, t.mem.byte? a = s.mem.byte? a) ∧
    t.stack.drop (pushes i) = s.stack.drop (pops i)

/-- The frame of MLOAD, MSTORE and MSTORE8 when they do not fault (42_memory_ops.md R97 to R99): beside pc, the top of the
stack and MSIZE only the stored bytes change. The address stored to is the top of the stack as a natural number (R96);
bytes that were not there before read as 0x00. -/
def Obligations.FrameOfMemoryInstructions : Prop :=
  ∀ (s t : State) (i : Instr), i = .mload ∨ i = .mstore ∨ i = .mstore8 → s.runState = .running →
    exec i s = .next t → t.runState ≠ .faulted →
    t.code = s.code ∧ t.mode = s.mode ∧ t.params = s.params ∧
    t.faultCause = s.faultCause ∧ t.faultPc = s.faultPc ∧ t.faultOpcode = s.faultOpcode ∧
    t.runState = s.runState ∧ t.events = s.events ∧
    t.stack.drop (pushes i) = s.stack.drop (pops i) ∧
    ∀ (offset : Word) (a : Nat), s.peek? = some offset →
      (i = .mload ∨ (i = .mstore ∧ (a < offset.toNat ∨ offset.toNat + 32 ≤ a)) ∨ (i = .mstore8 ∧ a ≠ offset.toNat)) →
      t.mem.byte? a = if a < s.mem.size then s.mem.byte? a else if a < t.mem.size then some 0x00 else none

/-- 10_state.md R19, R20, R28, R31, 20_memory.md R51, R61: over any step, in any mode, the code, MODE and the parameters
stay, pc and MSIZE never decrease, and EVENTS is only appended to, by at most one record. -/
def Obligations.StepNeverGoesBack : Prop :=
  ∀ s t : State, step s = .next t →
    t.code = s.code ∧ t.mode = s.mode ∧ t.params = s.params ∧ s.pc ≤ t.pc ∧ s.mem.size ≤ t.mem.size ∧
    ∃ es : List Event, t.events = s.events ++ es ∧ es.length ≤ 1

/-- 30_encoding.md R72, 40_control.md R80, R84: a step that runs or walks over an instruction without a fault moves pc by
exactly its width, in both modes. -/
def Obligations.PcAdvancesByExactlyTheWidth : Prop :=
  ∀ (s t : State) (i : Instr) (n : Nat), s.fetch = .op i n → step s = .next t → t.runState ≠ .faulted →
    n = s.pc + i.width ∧ t.pc = s.pc + i.width

/-! ### Invariants -/

/-- 10_state.md R36, 70_reset_and_hazards.md R124: every state element after reset, for any code, mode and parameters. -/
def Obligations.ResetPutsEveryElementInItsResetValue : Prop :=
  ∀ (bytes : List Byte) (mode : Mode) (params : Params),
    let s := State.resetWith bytes mode params
    s.code = bytes ∧ s.codeLen = bytes.length ∧ s.mode = mode ∧ s.params = params ∧ s.pc = 0 ∧ s.stack = [] ∧
    s.mem.size = 0 ∧ (∀ a : Nat, s.mem.byte? a = none) ∧ s.events = [] ∧ s.runState = .running ∧
    s.faultCause = 0 ∧ s.faultPc = 0 ∧ s.faultOpcode = 0

/-- The invariant holds after every reset. -/
def Obligations.InvariantHoldsAfterReset : Prop :=
  ∀ (bytes : List Byte) (mode : Mode) (params : Params), (State.resetWith bytes mode params).Inv

/-- 10_state.md R20, R22, R26, R32, 20_memory.md R50, 60_exceptions.md R110, R114, 40_control.md R84: every step keeps the
invariant: canonical memory, the stack and memory limits, pc's range, the fault record, and a debug walk that touches
neither stack nor memory. -/
def Obligations.StepKeepsInvariant : Prop :=
  ∀ s t : State, s.Inv → step s = .next t → t.Inv

/-- EVENTS' invariant holds after every reset. -/
def Obligations.EventsInvariantHoldsAfterReset : Prop :=
  ∀ (bytes : List Byte) (mode : Mode) (params : Params), (State.resetWith bytes mode params).eventsInv

/-- 10_state.md R31, 70_reset_and_hazards.md R131: every step keeps EVENTS in increasing address order below pc, with
UNKNOWN records only in run mode, and END's last exactly in a halted walk. -/
def Obligations.StepKeepsEventsInvariant : Prop :=
  ∀ s t : State, s.eventsInv → step s = .next t → t.eventsInv

/-! ### Runs -/

/-- 40_control.md R83, R84: a run-mode step that neither halts nor faults advances pc by the width of its instruction, at
least 1; at pc >= CODE_LEN it halts; so from any Running state a run ends within CODE_LEN - pc + 1 steps, in either
mode, and from reset, where pc is 0, within CODE_LEN + 1 steps. -/
def Obligations.EveryRunEndsWithinCodeLenPlusOneSteps : Prop :=
  (∀ s t : State, s.mode = .run → step s = .next t → t.runState = .running →
    ∃ (i : Instr) (n : Nat), s.fetch = .op i n ∧ t.pc = s.pc + i.width ∧ 1 ≤ i.width) ∧
  (∀ s : State, s.runState = .running → s.mode = .run → s.codeLen ≤ s.pc →
    ∃ t : State, step s = .next t ∧ t.endedNormally) ∧
  (∀ (bytes : List Byte) (mode : Mode) (params : Params), (State.resetWith bytes mode params).pc = 0) ∧
  (∀ s : State, s.runState = .running →
    ∃ k ≤ s.codeLen - s.pc + 1, ∃ t : State, Sys2Proof.core.run k s = .next t ∧ t.ended) ∧
  ∀ (bytes : List Byte) (mode : Mode) (params : Params),
    ∃ k ≤ bytes.length + 1, ∃ t : State,
      Sys2Proof.core.run k (State.resetWith bytes mode params) = .next t ∧ t.ended

/-- 40_control.md R84, 70_reset_and_hazards.md R131: a debug run is the walk over the code from pc: EVENTS gain exactly
the walk's records, stack and memory are untouched, and it ends normally unless the policy is Fault. -/
def Obligations.DebugRunIsTheWalk : Prop :=
  ∀ s : State, s.runState = .running → s.mode = .debug →
    ∃ (k : Nat) (t : State), k ≤ s.codeLen - s.pc + 1 ∧ Sys2Proof.core.run k s = .next t ∧ t.ended ∧
      t.events = s.events ++ walk s.params.oobImmPolicy s.code (s.codeLen - s.pc + 1) s.pc ∧
      t.stack = s.stack ∧ t.mem = s.mem ∧ (s.params.oobImmPolicy ≠ .fault → t.endedNormally)

/-! ### The host's side -/

/-- Log 4: with an opcode-table word laid where the block fetches, the next step runs exactly the instruction the decoder
reads from it. -/
def Obligations.FetchWordIsRunByTheNextStep : Prop :=
  ∀ (s : State) (nbits w : Nat) (i : Instr), decodeTableWord nbits w = some i →
    step (s.withFetchWord nbits w) = exec i (s.withFetchWord nbits w)

/-- 70_reset_and_hazards.md R130: after a run-mode run has Halted the host reads the stack top to bottom, each entry with
its depth index (0 at the top) and its 32 big-endian bytes. -/
def Obligations.ReadoutListsStackTopToBottom : Prop :=
  ∀ s : State, s.runState = .halted → s.mode = .run →
    ∃ entries : List (Nat × List Byte), s.readout = .results entries s.mem s.pc s.events ∧
      entries.length = s.depth ∧
      ∀ (i : Nat) (v : Word), s.stack[i]? = some v → entries[i]? = some (i, wordToBe32 v)

/-- 70_reset_and_hazards.md R127: the Hex Decoder accepts exactly the texts of hexadecimal digit pairs, and yields one
byte per pair; it fails on an odd length, or at a pair that is not valid; re-encoding and decoding again reproduces the
bytes. The model's choice (log 15): which of the two it reports when both hold, and the positions an error names, the
text's length for an odd length and the pair's first character for a bad pair. -/
def Obligations.HexDecodeAcceptsExactlyDigitPairs : Prop :=
  (∀ (text : List Char) (bytes : List Byte), hexDecode text = .ok bytes ↔
    text.length = 2 * bytes.length ∧
    ∀ (k : Nat) (b : Byte), bytes[k]? = some b → ∃ (c d : Char) (x y : Nat),
      text[2 * k]? = some c ∧ text[2 * k + 1]? = some d ∧ hexDigit? c = some x ∧ hexDigit? d = some y ∧
      b.toNat = 16 * x + y) ∧
  (∀ (text : List Char) (e : HostError), hexDecode text = .error e →
    (text.length % 2 = 1 ∧ e = .oddLength text.length) ∨
    (text.length % 2 = 0 ∧ ∃ (p : Nat) (c d : Char), e = .badPair p ∧ p % 2 = 0 ∧ text[p]? = some c ∧
      text[p + 1]? = some d ∧ (hexDigit? c = none ∨ hexDigit? d = none))) ∧
  ∀ bytes : List Byte, hexDecode (hexEncode bytes) = .ok bytes

/-! ### The overflow check in full -/

/-- 40_control.md R81, read literally (log 7, DEDUCED): the overflow check is made for every kind, also for those
60_exceptions.md R109 does not list; within STACK_LIMIT only a push can fail it. -/
def Obligations.OverflowCheckIsMadeForEveryKind : Prop :=
  ∀ (s : State) (i : Instr) (n : Nat), s.params.stackLimit = some n → pops i ≤ s.depth →
    n < s.depth - pops i + pushes i →
    exec i s = .next { s with runState := .faulted, faultCause := 4, faultPc := s.pc, faultOpcode := i.opcode } ∧
    (s.withinStackLimit → i.kind ∈ [Kind.push1, .push2, .push32])
end

