-- ==== Sys2Proof/Laws/Bytes.lean ====
section
/-!
SUPPORT. Big-endian conversion (00_scope.md R15): lengths, bounds, single bytes, and both directions.
-/
namespace Sys2Proof

theorem beToNat_foldl (bs : List Byte) (acc : Nat) :
    bs.foldl (fun acc b => acc * 256 + b.toNat) acc = acc * 256 ^ bs.length + beToNat bs := by
  induction bs generalizing acc with
  | nil => simp [beToNat]
  | cons b bs ih =>
    simp only [beToNat, List.foldl_cons, List.length_cons] at *
    rw [ih, ih (0 * 256 + b.toNat), Nat.pow_succ]
    ring

@[simp] theorem beToNat_nil : beToNat [] = 0 := rfl

theorem beToNat_cons (b : Byte) (bs : List Byte) :
    beToNat (b :: bs) = b.toNat * 256 ^ bs.length + beToNat bs := by
  rw [beToNat, List.foldl_cons, beToNat_foldl]
  simp

theorem beToNat_lt (bs : List Byte) : beToNat bs < 256 ^ bs.length := by
  induction bs with
  | nil => simp
  | cons b bs ih =>
    have hb : b.toNat ≤ 255 := by have := b.isLt; omega
    have := Nat.mul_le_mul_right (256 ^ bs.length) hb
    rw [beToNat_cons, List.length_cons, Nat.pow_succ]
    omega

theorem beToNat_append (bs cs : List Byte) :
    beToNat (bs ++ cs) = beToNat bs * 256 ^ cs.length + beToNat cs := by
  rw [beToNat, List.foldl_append, beToNat_foldl]
  rfl

/-- Digit k, counted from the most significant, of a big-endian number. -/
theorem beToNat_digit (bs : List Byte) (k : Nat) (hk : k < bs.length) :
    beToNat bs / 256 ^ (bs.length - 1 - k) % 256 = (bs[k]).toNat := by
  induction bs generalizing k with
  | nil => simp at hk
  | cons b bs ih =>
    have hlt := beToNat_lt bs
    have hb : b.toNat < 256 := b.isLt
    rw [beToNat_cons]
    cases k with
    | zero =>
      have h0 : (b :: bs).length - 1 - 0 = bs.length := by simp
      rw [h0, Nat.mul_comm, Nat.mul_add_div (by positivity), Nat.div_eq_of_lt hlt]
      simpa using Nat.mod_eq_of_lt hb
    | succ k =>
      have hk' : k < bs.length := by simpa using hk
      have he : (b :: bs).length - 1 - (k + 1) = bs.length - 1 - k := by simp; omega
      have hp : 256 ^ bs.length = 256 ^ (bs.length - 1 - k) * (256 * 256 ^ k) := by
        rw [← Nat.pow_succ', ← Nat.pow_add]; congr 1; omega
      rw [he, hp, show b.toNat * (256 ^ (bs.length - 1 - k) * (256 * 256 ^ k)) + beToNat bs
        = 256 ^ (bs.length - 1 - k) * (256 * (256 ^ k * b.toNat)) + beToNat bs by ring,
        Nat.mul_add_div (by positivity), Nat.mul_add_mod, ih k hk']
      simp

theorem beToWord_toNat (bs : List Byte) (h : bs.length ≤ 32) : (beToWord bs).toNat = beToNat bs := by
  have h1 := beToNat_lt bs
  have h2 : 256 ^ bs.length ≤ 256 ^ 32 := Nat.pow_le_pow_right (by omega) h
  have h3 : (256 : Nat) ^ 32 = 2 ^ 256 := by norm_num
  rw [beToWord, BitVec.toNat_ofNat, Nat.mod_eq_of_lt (by omega)]

theorem wordByte_toNat (v : Word) (k : Nat) (hk : k < 32) :
    (wordByte v k).toNat = v.toNat / 256 ^ (31 - k) % 256 := by
  have h : 248 - 8 * k = 8 * (31 - k) := by omega
  rw [wordByte, BitVec.extractLsb'_toNat, Nat.shiftRight_eq_div_pow, h, Nat.pow_mul]

/-- Byte k of the word that 32 bytes spell is the k-th of them. -/
theorem wordByte_beToWord (bs : List Byte) (h : bs.length = 32) (k : Nat) (hk : k < 32) :
    wordByte (beToWord bs) k = bs[k] := by
  apply BitVec.eq_of_toNat_eq
  have := beToNat_digit bs k (by omega)
  rw [wordByte_toNat _ _ hk, beToWord_toNat _ (by omega), ← this, h]

@[simp] theorem wordToBe32_length (v : Word) : (wordToBe32 v).length = 32 := by
  simp [wordToBe32]

theorem wordToBe32_getElem (v : Word) (k : Nat) (hk : k < (wordToBe32 v).length) :
    (wordToBe32 v)[k] = wordByte v k := by
  simp [wordToBe32]

theorem wordToBe32_beToWord (bs : List Byte) (h : bs.length = 32) : wordToBe32 (beToWord bs) = bs := by
  apply List.ext_getElem
  · simp [h]
  · intro k hk _
    rw [wordToBe32_getElem, wordByte_beToWord bs h k (by simpa using hk)]

theorem word_ext_bytes (v w : Word) (h : ∀ k < 32, wordByte v k = wordByte w k) : v = w := by
  apply BitVec.eq_of_getLsbD_eq
  intro i hi
  have hb := congrArg (fun b : Byte => b.getLsbD (i % 8)) (h (31 - i / 8) (by omega))
  have e : 248 - 8 * (31 - i / 8) + i % 8 = i := by omega
  have h8 : i % 8 < 8 := Nat.mod_lt _ (by omega)
  simpa [wordByte, BitVec.getLsbD_extractLsb', h8, e] using hb

theorem beToWord_wordToBe32 (v : Word) : beToWord (wordToBe32 v) = v := by
  apply word_ext_bytes
  intro k hk
  rw [wordByte_beToWord _ (by simp) k hk, wordToBe32_getElem]

end Sys2Proof
end

