-- ==== Sys2Proof/Laws/Decode.lean ====
section
/-!
SUPPORT. The decoder and the fetch-decode stage: what each can answer, said once.
-/
namespace Sys2Proof

theorem immLength_le (t : Byte) : immLength t ≤ 32 := by
  unfold immLength
  split
  · omega
  · split
    · omega
    · split <;> omega

/-- The instruction an opcode byte selects has that byte as its tag, and is well formed. -/
theorem instrOf_opcode (t : Byte) (imm : List Byte) : (instrOf t imm).opcode = t ∧ (instrOf t imm).wf = true := by
  unfold instrOf
  repeat' split
  all_goals try (subst_vars; exact ⟨rfl, rfl⟩)
  refine ⟨rfl, ?_⟩
  simp only [Instr.wf, instructionOpcodes, List.contains_eq_mem, List.mem_cons, List.not_mem_nil, or_false]
  simp_all

theorem instrOf_width (t : Byte) (imm : List Byte) : (instrOf t imm).width = 1 + immLength t := by
  unfold instrOf immLength
  repeat' split
  all_goals first | rfl | (subst_vars; simp_all)

/-- The width is that of the opcode byte alone (30_encoding.md R67). -/
theorem width_bounds (i : Instr) : 1 ≤ i.width ∧ i.width ≤ 33 := by
  cases i <;> simp [Instr.width]

/-- Everything `decode` can answer. -/
theorem decode_cases (bs : List Byte) :
    (bs = [] ∧ decode bs = .noBytes) ∨
    (∃ t rest, bs = t :: rest ∧ rest.length < immLength t ∧ decode bs = .shortImmediate t (immLength t) rest) ∨
    (∃ t rest, bs = t :: rest ∧ immLength t ≤ rest.length ∧
      decode bs = .instr (instrOf t (rest.take (immLength t))) (rest.drop (immLength t))) := by
  cases bs with
  | nil => exact .inl ⟨rfl, rfl⟩
  | cons t rest =>
    by_cases h : rest.length < immLength t
    · exact .inr (.inl ⟨t, rest, rfl, h, by rw [decode, if_pos h]⟩)
    · exact .inr (.inr ⟨t, rest, rfl, by omega, by rw [decode, if_neg h]⟩)

/-- Everything fetch-decode can answer, with where pc stands in each case. -/
theorem fetchDecode_cases (policy : OobImmPolicy) (code : List Byte) (pc : Nat) :
    (code.length ≤ pc ∧ fetchDecode policy code pc = .endOfCode) ∨
    (∃ t avail, code.drop pc = t :: avail ∧ avail.length < immLength t ∧
      fetchDecode policy code pc = decodeOutOfBounds policy pc t (immLength t) avail) ∨
    (∃ t rest, code.drop pc = t :: rest ∧ immLength t ≤ rest.length ∧ pc + 1 + immLength t ≤ code.length ∧
      fetchDecode policy code pc = .op (instrOf t (rest.take (immLength t))) (pc + 1 + immLength t)) := by
  unfold fetchDecode
  rcases decode_cases (code.drop pc) with ⟨hb, hd⟩ | ⟨t, rest, hb, hl, hd⟩ | ⟨t, rest, hb, hl, hd⟩
  · exact .inl ⟨List.drop_eq_nil_iff.1 hb, by rw [hd]⟩
  · exact .inr (.inl ⟨t, rest, hb, hl, by rw [hd]⟩)
  · have hlen := congrArg List.length hb
    rw [List.length_drop, List.length_cons] at hlen
    refine .inr (.inr ⟨t, rest, hb, hl, by omega, ?_⟩)
    rw [hd]
    simp only [instrOf_width, Nat.add_assoc]

/-- An instruction fetch-decode returns: it is well formed, starts inside the code, and the next pc is pc plus its
width; that lies inside the code, or under ZeroPad at most 32 bytes beyond it (10_state.md R20, 30_encoding.md R72). -/
theorem fetchDecode_op {policy : OobImmPolicy} {code : List Byte} {pc : Nat} {i : Instr} {n : Nat}
    (h : fetchDecode policy code pc = .op i n) :
    i.wf = true ∧ pc < code.length ∧ n = pc + i.width ∧
      (n ≤ code.length ∨ policy = .zeroPad ∧ n ≤ code.length + 32) := by
  rcases fetchDecode_cases policy code pc with ⟨_, hf⟩ | ⟨t, avail, hb, hl, hf⟩ | ⟨t, rest, hb, hl, hn, hf⟩
  · rw [hf] at h; cases h
  · have hlen := congrArg List.length hb
    rw [List.length_drop, List.length_cons] at hlen
    have := immLength_le t
    rw [hf] at h
    cases policy <;> cases h
    refine ⟨(instrOf_opcode _ _).2, by omega, by rw [instrOf_width]; omega, .inr ⟨rfl, by omega⟩⟩
  · have hlen := congrArg List.length hb
    rw [List.length_drop, List.length_cons] at hlen
    rw [hf] at h
    cases h
    exact ⟨(instrOf_opcode _ _).2, by omega, by rw [instrOf_width]; omega, .inl hn⟩

end Sys2Proof
end

