-- ==== Sys2Proof/Laws/State.lean ====
section
/-!
SUPPORT. One lemma per field of State per update, so that no later proof unfolds a record update; and the fields of the
state reset leaves.
-/
namespace Sys2Proof.Machine

/-! ### State.setPc -/

@[simp] theorem State.setPc_code (s : State) (target : Nat) : (s.setPc target).code = s.code := rfl
@[simp] theorem State.setPc_pc (s : State) (target : Nat) : (s.setPc target).pc = target := rfl
@[simp] theorem State.setPc_stack (s : State) (target : Nat) : (s.setPc target).stack = s.stack := rfl
@[simp] theorem State.setPc_mem (s : State) (target : Nat) : (s.setPc target).mem = s.mem := rfl
@[simp] theorem State.setPc_runState (s : State) (target : Nat) : (s.setPc target).runState = s.runState := rfl
@[simp] theorem State.setPc_mode (s : State) (target : Nat) : (s.setPc target).mode = s.mode := rfl
@[simp] theorem State.setPc_events (s : State) (target : Nat) : (s.setPc target).events = s.events := rfl
@[simp] theorem State.setPc_faultCause (s : State) (target : Nat) : (s.setPc target).faultCause = s.faultCause := rfl
@[simp] theorem State.setPc_faultPc (s : State) (target : Nat) : (s.setPc target).faultPc = s.faultPc := rfl
@[simp] theorem State.setPc_faultOpcode (s : State) (target : Nat) : (s.setPc target).faultOpcode = s.faultOpcode := rfl
@[simp] theorem State.setPc_params (s : State) (target : Nat) : (s.setPc target).params = s.params := rfl

/-! ### State.setStack -/

@[simp] theorem State.setStack_code (s : State) (l : List Word) : (s.setStack l).code = s.code := rfl
@[simp] theorem State.setStack_pc (s : State) (l : List Word) : (s.setStack l).pc = s.pc := rfl
@[simp] theorem State.setStack_stack (s : State) (l : List Word) : (s.setStack l).stack = l := rfl
@[simp] theorem State.setStack_mem (s : State) (l : List Word) : (s.setStack l).mem = s.mem := rfl
@[simp] theorem State.setStack_runState (s : State) (l : List Word) : (s.setStack l).runState = s.runState := rfl
@[simp] theorem State.setStack_mode (s : State) (l : List Word) : (s.setStack l).mode = s.mode := rfl
@[simp] theorem State.setStack_events (s : State) (l : List Word) : (s.setStack l).events = s.events := rfl
@[simp] theorem State.setStack_faultCause (s : State) (l : List Word) : (s.setStack l).faultCause = s.faultCause := rfl
@[simp] theorem State.setStack_faultPc (s : State) (l : List Word) : (s.setStack l).faultPc = s.faultPc := rfl
@[simp] theorem State.setStack_faultOpcode (s : State) (l : List Word) : (s.setStack l).faultOpcode = s.faultOpcode := rfl
@[simp] theorem State.setStack_params (s : State) (l : List Word) : (s.setStack l).params = s.params := rfl

/-! ### State.setMem -/

@[simp] theorem State.setMem_code (s : State) (m : Memory) : (s.setMem m).code = s.code := rfl
@[simp] theorem State.setMem_pc (s : State) (m : Memory) : (s.setMem m).pc = s.pc := rfl
@[simp] theorem State.setMem_stack (s : State) (m : Memory) : (s.setMem m).stack = s.stack := rfl
@[simp] theorem State.setMem_mem (s : State) (m : Memory) : (s.setMem m).mem = m := rfl
@[simp] theorem State.setMem_runState (s : State) (m : Memory) : (s.setMem m).runState = s.runState := rfl
@[simp] theorem State.setMem_mode (s : State) (m : Memory) : (s.setMem m).mode = s.mode := rfl
@[simp] theorem State.setMem_events (s : State) (m : Memory) : (s.setMem m).events = s.events := rfl
@[simp] theorem State.setMem_faultCause (s : State) (m : Memory) : (s.setMem m).faultCause = s.faultCause := rfl
@[simp] theorem State.setMem_faultPc (s : State) (m : Memory) : (s.setMem m).faultPc = s.faultPc := rfl
@[simp] theorem State.setMem_faultOpcode (s : State) (m : Memory) : (s.setMem m).faultOpcode = s.faultOpcode := rfl
@[simp] theorem State.setMem_params (s : State) (m : Memory) : (s.setMem m).params = s.params := rfl

/-! ### State.push -/

@[simp] theorem State.push_code (s : State) (v : Word) : (s.push v).code = s.code := rfl
@[simp] theorem State.push_pc (s : State) (v : Word) : (s.push v).pc = s.pc := rfl
@[simp] theorem State.push_stack (s : State) (v : Word) : (s.push v).stack = v :: s.stack := rfl
@[simp] theorem State.push_mem (s : State) (v : Word) : (s.push v).mem = s.mem := rfl
@[simp] theorem State.push_runState (s : State) (v : Word) : (s.push v).runState = s.runState := rfl
@[simp] theorem State.push_mode (s : State) (v : Word) : (s.push v).mode = s.mode := rfl
@[simp] theorem State.push_events (s : State) (v : Word) : (s.push v).events = s.events := rfl
@[simp] theorem State.push_faultCause (s : State) (v : Word) : (s.push v).faultCause = s.faultCause := rfl
@[simp] theorem State.push_faultPc (s : State) (v : Word) : (s.push v).faultPc = s.faultPc := rfl
@[simp] theorem State.push_faultOpcode (s : State) (v : Word) : (s.push v).faultOpcode = s.faultOpcode := rfl
@[simp] theorem State.push_params (s : State) (v : Word) : (s.push v).params = s.params := rfl

/-! ### State.emit -/

@[simp] theorem State.emit_code (s : State) (r : OpRecord) : (s.emit r).code = s.code := rfl
@[simp] theorem State.emit_pc (s : State) (r : OpRecord) : (s.emit r).pc = s.pc := rfl
@[simp] theorem State.emit_stack (s : State) (r : OpRecord) : (s.emit r).stack = s.stack := rfl
@[simp] theorem State.emit_mem (s : State) (r : OpRecord) : (s.emit r).mem = s.mem := rfl
@[simp] theorem State.emit_runState (s : State) (r : OpRecord) : (s.emit r).runState = s.runState := rfl
@[simp] theorem State.emit_mode (s : State) (r : OpRecord) : (s.emit r).mode = s.mode := rfl
@[simp] theorem State.emit_events (s : State) (r : OpRecord) : (s.emit r).events = s.events ++ [r.event] := rfl
@[simp] theorem State.emit_faultCause (s : State) (r : OpRecord) : (s.emit r).faultCause = s.faultCause := rfl
@[simp] theorem State.emit_faultPc (s : State) (r : OpRecord) : (s.emit r).faultPc = s.faultPc := rfl
@[simp] theorem State.emit_faultOpcode (s : State) (r : OpRecord) : (s.emit r).faultOpcode = s.faultOpcode := rfl
@[simp] theorem State.emit_params (s : State) (r : OpRecord) : (s.emit r).params = s.params := rfl

/-! ### State.halt -/

@[simp] theorem State.halt_code (s : State) : s.halt.code = s.code := rfl
@[simp] theorem State.halt_pc (s : State) : s.halt.pc = s.pc := rfl
@[simp] theorem State.halt_stack (s : State) : s.halt.stack = s.stack := rfl
@[simp] theorem State.halt_mem (s : State) : s.halt.mem = s.mem := rfl
@[simp] theorem State.halt_runState (s : State) : s.halt.runState = .halted := rfl
@[simp] theorem State.halt_mode (s : State) : s.halt.mode = s.mode := rfl
@[simp] theorem State.halt_events (s : State) : s.halt.events = s.events := rfl
@[simp] theorem State.halt_faultCause (s : State) : s.halt.faultCause = s.faultCause := rfl
@[simp] theorem State.halt_faultPc (s : State) : s.halt.faultPc = s.faultPc := rfl
@[simp] theorem State.halt_faultOpcode (s : State) : s.halt.faultOpcode = s.faultOpcode := rfl
@[simp] theorem State.halt_params (s : State) : s.halt.params = s.params := rfl

/-! ### State.raise -/

@[simp] theorem State.raise_code (s : State) (c : Cause) (addr : Nat) (tag : Byte) : (s.raise c addr tag).code = s.code := rfl
@[simp] theorem State.raise_pc (s : State) (c : Cause) (addr : Nat) (tag : Byte) : (s.raise c addr tag).pc = s.pc := rfl
@[simp] theorem State.raise_stack (s : State) (c : Cause) (addr : Nat) (tag : Byte) : (s.raise c addr tag).stack = s.stack := rfl
@[simp] theorem State.raise_mem (s : State) (c : Cause) (addr : Nat) (tag : Byte) : (s.raise c addr tag).mem = s.mem := rfl
@[simp] theorem State.raise_runState (s : State) (c : Cause) (addr : Nat) (tag : Byte) : (s.raise c addr tag).runState = .faulted := rfl
@[simp] theorem State.raise_mode (s : State) (c : Cause) (addr : Nat) (tag : Byte) : (s.raise c addr tag).mode = s.mode := rfl
@[simp] theorem State.raise_events (s : State) (c : Cause) (addr : Nat) (tag : Byte) : (s.raise c addr tag).events = s.events := rfl
@[simp] theorem State.raise_faultCause (s : State) (c : Cause) (addr : Nat) (tag : Byte) : (s.raise c addr tag).faultCause = c.code := rfl
@[simp] theorem State.raise_faultPc (s : State) (c : Cause) (addr : Nat) (tag : Byte) : (s.raise c addr tag).faultPc = addr := rfl
@[simp] theorem State.raise_faultOpcode (s : State) (c : Cause) (addr : Nat) (tag : Byte) : (s.raise c addr tag).faultOpcode = tag := rfl
@[simp] theorem State.raise_params (s : State) (c : Cause) (addr : Nat) (tag : Byte) : (s.raise c addr tag).params = s.params := rfl

/-! ### Reset -/

@[simp] theorem State.resetWith_code (bs : List Byte) (m : Mode) (p : Params) : (State.resetWith bs m p).code = bs := rfl
@[simp] theorem State.resetWith_pc (bs : List Byte) (m : Mode) (p : Params) : (State.resetWith bs m p).pc = 0 := rfl
@[simp] theorem State.resetWith_stack (bs : List Byte) (m : Mode) (p : Params) : (State.resetWith bs m p).stack = [] := rfl
@[simp] theorem State.resetWith_mem (bs : List Byte) (m : Mode) (p : Params) : (State.resetWith bs m p).mem = Memory.empty := rfl
@[simp] theorem State.resetWith_runState (bs : List Byte) (m : Mode) (p : Params) : (State.resetWith bs m p).runState = .running := rfl
@[simp] theorem State.resetWith_mode (bs : List Byte) (m : Mode) (p : Params) : (State.resetWith bs m p).mode = m := rfl
@[simp] theorem State.resetWith_events (bs : List Byte) (m : Mode) (p : Params) : (State.resetWith bs m p).events = [] := rfl
@[simp] theorem State.resetWith_faultCause (bs : List Byte) (m : Mode) (p : Params) : (State.resetWith bs m p).faultCause = 0 := rfl
@[simp] theorem State.resetWith_faultPc (bs : List Byte) (m : Mode) (p : Params) : (State.resetWith bs m p).faultPc = 0 := rfl
@[simp] theorem State.resetWith_faultOpcode (bs : List Byte) (m : Mode) (p : Params) : (State.resetWith bs m p).faultOpcode = 0 := rfl
@[simp] theorem State.resetWith_params (bs : List Byte) (m : Mode) (p : Params) : (State.resetWith bs m p).params = p := rfl

end Sys2Proof.Machine
end

