-- ==== Sys2Proof/Laws/Memory.lean ====
section
/-!
SUPPORT. The memory controller (20_memory.md R44 to R47): what each operation does to every byte and to MSIZE, and that
each keeps the canonical form.
-/
namespace Sys2Proof.Machine

/-! ### Cells -/

theorem cellsGet_filter (cs : List Host.Cell) (p : Host.Cell → Bool) (q : Nat → Bool) (hp : ∀ c, p c = q c.1) (a : Nat) :
    cellsGet (cs.filter p) a = if q a then cellsGet cs a else unlistedByte := by
  induction cs with
  | nil => simp [cellsGet]
  | cons c cs ih =>
    by_cases hq : q c.1
    · rw [List.filter_cons_of_pos (by simp [hp, hq]), cellsGet, cellsGet, ih]
      by_cases hc : c.1 = a
      · simp [hc ▸ hq]
      · simp [hc]
    · rw [List.filter_cons_of_neg (by simp [hp, hq]), ih, cellsGet]
      by_cases hc : c.1 = a
      · simp [hc ▸ hq]
      · simp [hc]

theorem cellsGet_insert (a : Nat) (b : Byte) (cs : List Host.Cell) (h : ∀ c ∈ cs, c.1 ≠ a) (x : Nat) :
    cellsGet (cellsInsert a b cs) x = if x = a then b else cellsGet cs x := by
  induction cs with
  | nil => simp [cellsInsert, cellsGet, eq_comm]
  | cons c cs ih =>
    rw [cellsInsert]
    split
    · simp [cellsGet, eq_comm]
    · have hc : c.1 ≠ a := h c (by simp)
      rw [cellsGet, cellsGet, ih (fun d hd => h d (by simp [hd]))]
      split
      · next hx => simp [← hx, hc]
      · rfl

/-- Reading after a write to one address, in any list of cells. -/
theorem cellsGet_set (cs : List Host.Cell) (a : Nat) (b : Byte) (x : Nat) :
    cellsGet (cellsSet cs a b) x = if x = a then b else cellsGet cs x := by
  have hf : cellsGet (cs.filter (fun c => c.1 != a)) x = if x != a then cellsGet cs x else unlistedByte :=
    cellsGet_filter cs _ (fun y => y != a) (fun _ => rfl) x
  rw [cellsSet]
  split
  · next hb =>
    rw [hf]
    by_cases h : x = a <;> simp [h, hb]
  · rw [cellsGet_insert _ _ _ (by simp), hf]
    by_cases h : x = a <;> simp [h]

theorem mem_cellsInsert (a : Nat) (b : Byte) (cs : List Host.Cell) (c : Host.Cell) :
    c ∈ cellsInsert a b cs ↔ c = (a, b) ∨ c ∈ cs := by
  induction cs with
  | nil => simp [cellsInsert]
  | cons d cs ih =>
    rw [cellsInsert]
    split
    · simp
    · simp only [List.mem_cons, ih]
      tauto

theorem cellsInsert_rising (a : Nat) (b : Byte) (cs : List Host.Cell) (h : cs.Pairwise (fun c d => c.1 < d.1))
    (hne : ∀ c ∈ cs, c.1 ≠ a) : (cellsInsert a b cs).Pairwise (fun c d => c.1 < d.1) := by
  induction cs with
  | nil => simp [cellsInsert]
  | cons c cs ih =>
    rw [List.pairwise_cons] at h
    have hc : c.1 ≠ a := hne c (by simp)
    rw [cellsInsert]
    split
    · next hlt =>
      refine List.pairwise_cons.2 ⟨fun d hd => ?_, List.pairwise_cons.2 h⟩
      rcases List.mem_cons.1 hd with rfl | hd
      · exact hlt
      · exact Nat.lt_trans hlt (h.1 d hd)
    · next hlt =>
      refine List.pairwise_cons.2 ⟨fun d hd => ?_, ih h.2 (fun d hd => hne d (by simp [hd]))⟩
      rcases (mem_cellsInsert a b cs d).1 hd with rfl | hd
      · simp only; omega
      · exact h.1 d hd

/-- Writing one byte below MSIZE keeps the canonical form. -/
theorem cellsSet_wf (m : Memory) (a : Nat) (b : Byte) (ha : a < m.size) (h : m.wf) :
    Memory.wf { m with cells := cellsSet m.cells a b } := by
  have hr : (m.cells.filter (fun c => c.1 != a)).Pairwise (fun c d => c.1 < d.1) := h.1.filter _
  have hm : ∀ c ∈ m.cells.filter (fun c => c.1 != a), c.1 < m.size ∧ c.2 ≠ unlistedByte :=
    fun c hc => h.2 c (List.mem_filter.1 hc).1
  unfold cellsSet
  split
  · exact ⟨hr, hm⟩
  · next hb =>
    refine ⟨cellsInsert_rising _ _ _ hr (by simp), fun c hc => ?_⟩
    rcases (mem_cellsInsert _ _ _ _).1 hc with rfl | hc
    · exact ⟨ha, hb⟩
    · exact hm c hc

/-! ### Runs of bytes -/

@[simp] theorem setBytes_size (m : Memory) (a : Nat) (bs : List Byte) : (m.setBytes a bs).size = m.size := by
  induction bs generalizing m a with
  | nil => rfl
  | cons b bs ih => rw [Memory.setBytes, ih]

/-- A stored byte reads as it was stored, and every other byte as before. -/
theorem setBytes_get (m : Memory) (a : Nat) (bs : List Byte) (x : Nat) :
    cellsGet (m.setBytes a bs).cells x =
      if a ≤ x ∧ x < a + bs.length then bs.getD (x - a) 0 else cellsGet m.cells x := by
  induction bs generalizing m a with
  | nil => simp [Memory.setBytes, show ¬ (a ≤ x ∧ x < a) by omega]
  | cons b bs ih =>
    rw [Memory.setBytes, ih, cellsGet_set, List.length_cons]
    by_cases hx : x = a
    · subst hx
      simp
    · by_cases hin : a ≤ x ∧ x < a + (bs.length + 1)
      · rw [if_pos (show a + 1 ≤ x ∧ x < a + 1 + bs.length by omega), if_pos hin,
          show x - a = (x - (a + 1)) + 1 by omega, List.getD_cons_succ]
      · rw [if_neg (show ¬ (a + 1 ≤ x ∧ x < a + 1 + bs.length) by omega), if_neg hin, if_neg hx]

theorem setBytes_wf (m : Memory) (a : Nat) (bs : List Byte) (ha : a + bs.length ≤ m.size) (h : m.wf) :
    (m.setBytes a bs).wf := by
  induction bs generalizing m a with
  | nil => exact h
  | cons b bs ih =>
    rw [List.length_cons] at ha
    rw [Memory.setBytes]
    exact ih _ _ (by simp only; omega) (cellsSet_wf m a b (by omega) h)

theorem getBytes_getElem (m : Memory) (a n k : Nat) (hk : k < (m.getBytes a n).length) :
    (m.getBytes a n)[k] = cellsGet m.cells (a + k) := by
  simp [Memory.getBytes]

@[simp] theorem getBytes_length (m : Memory) (a n : Nat) : (m.getBytes a n).length = n := by
  simp [Memory.getBytes]

/-! ### Grow -/

theorem grow_size (m : Memory) (n : Nat) : (m.grow n).size = max m.size n := by
  rw [Memory.grow]
  split
  · next h => exact (Nat.max_eq_right (Nat.le_of_lt h)).symm
  · next h => exact (Nat.max_eq_left (Nat.le_of_not_lt h)).symm

theorem grow_get (m : Memory) (n a : Nat) (h : a < m.size) :
    cellsGet (m.grow n).cells a = cellsGet m.cells a := by
  rw [Memory.grow]
  split
  · rw [cellsGet_filter m.cells _ (fun y => decide (y < m.size)) (fun _ => rfl)]
    simp [h]
  · rfl

/-- Every byte after Grow (20_memory.md R44): the old ones as before, the new ones 0x00. -/
theorem grow_byte (m : Memory) (n a : Nat) :
    (m.grow n).byte? a =
      if a < m.size then m.byte? a else if a < n then some unlistedByte else none := by
  rw [Memory.byte?, grow_size, Memory.byte?]
  by_cases h1 : a < m.size
  · rw [grow_get _ _ _ h1]
    simp [h1]
  · by_cases h2 : a < n
    · have hg : cellsGet (m.grow n).cells a = unlistedByte := by
        rw [Memory.grow, if_pos (by omega), cellsGet_filter m.cells _ (fun y => decide (y < m.size)) (fun _ => rfl)]
        simp [h1]
      simp [h1, h2, hg]
    · simp [h1, h2]

theorem grow_wf (m : Memory) (n : Nat) (h : m.wf) : (m.grow n).wf := by
  rw [Memory.grow]
  split
  · next hn =>
    refine ⟨h.1.filter _, fun c hc => ?_⟩
    have := h.2 c (List.mem_filter.1 hc).1
    exact ⟨by simp only; omega, this.2⟩
  · exact h

/-! ### The accessors -/

/-- A word read succeeds exactly within MSIZE (20_memory.md R45, R48). -/
theorem readWord?_eq_some (m : Memory) (a : Nat) (h : a + 32 ≤ m.size) :
    m.readWord? a = some (beToWord (m.getBytes a 32)) := by
  rw [Memory.readWord?, if_pos h]

theorem readWord?_byte (m : Memory) (a : Nat) (v : Word) (h : m.readWord? a = some v) (k : Nat) (hk : k < 32) :
    m.byte? (a + k) = some (wordByte v k) := by
  rw [Memory.readWord?] at h
  split at h
  · next hs =>
    cases h
    rw [wordByte_beToWord _ (by simp) k hk, getBytes_getElem, Memory.byte?, if_pos (by omega)]
  · cases h

/-- A word write succeeds exactly within MSIZE (20_memory.md R46, R48). -/
theorem writeWord?_eq_some (m : Memory) (a : Nat) (v : Word) (h : a + 32 ≤ m.size) :
    m.writeWord? a v = some (m.setBytes a (wordToBe32 v)) := by
  rw [Memory.writeWord?, if_pos h]

theorem writeByte?_eq_some (m : Memory) (a : Nat) (b : Byte) (h : a + 1 ≤ m.size) :
    m.writeByte? a b = some (m.setBytes a [b]) := by
  rw [Memory.writeByte?, if_pos h]

/-- Every byte after a store of bytes that lie below MSIZE. -/
theorem setBytes_byte (m : Memory) (a : Nat) (bs : List Byte) (h : a + bs.length ≤ m.size) (x : Nat) :
    (m.setBytes a bs).byte? x =
      if a ≤ x ∧ x < a + bs.length then some (bs.getD (x - a) 0) else m.byte? x := by
  rw [Memory.byte?, setBytes_size, setBytes_get]
  by_cases hin : a ≤ x ∧ x < a + bs.length
  · simp [hin, show x < m.size by omega]
  · simp [hin, Memory.byte?]

theorem writeWord?_wf (m m' : Memory) (a : Nat) (v : Word) (h : m.wf) (hw : m.writeWord? a v = some m') : m'.wf := by
  rw [Memory.writeWord?] at hw
  split at hw
  · cases hw; exact setBytes_wf m a _ (by simpa using ‹_›) h
  · cases hw

theorem writeByte?_wf (m m' : Memory) (a : Nat) (b : Byte) (h : m.wf) (hw : m.writeByte? a b = some m') : m'.wf := by
  rw [Memory.writeByte?] at hw
  split at hw
  · cases hw; exact setBytes_wf m a _ (by simpa using ‹_›) h
  · cases hw

theorem empty_wf : Memory.empty.wf := by decide

theorem reset_mem_wf : State.reset.mem.wf := empty_wf

end Sys2Proof.Machine
end

