-- ==== Sys2Proof/Laws/Execute.lean ====
section
/-!
SUPPORT. What each shared operation of a step can do, said once: the checks, `prepare`, `execute`, the effects, and the
step itself. Proofs about instructions cite these instead of unfolding the operations.
-/
namespace Sys2Proof.Machine

/-! ### The checks -/

theorem exceeds_eq_false {limit : Option Nat} {n : Nat} :
    exceeds limit n = false ↔ ∀ l, limit = some l → n ≤ l := by
  cases limit <;> simp [exceeds]

theorem exceeds_eq_true {limit : Option Nat} {n : Nat} :
    exceeds limit n = true ↔ ∃ l, limit = some l ∧ l < n := by
  cases limit <;> simp [exceeds]

/-- When the operand check passes (40_control.md R81). -/
theorem checkOperands_eq_none {i : Instr} {s : State} :
    checkOperands i s = none ↔
      pops i ≤ s.depth ∧ ∀ n, s.params.stackLimit = some n → s.depth - pops i + pushes i ≤ n := by
  unfold checkOperands
  rw [← exceeds_eq_false]
  split
  · simp; omega
  · split <;> simp_all

/-- A state within STACK_LIMIT passes the check of every kind that does not deepen the stack. -/
theorem checkOperands_of_within {i : Instr} {s : State} (h : s.withinStackLimit) (hp : pops i ≤ s.depth)
    (hd : pushes i ≤ pops i) : checkOperands i s = none :=
  checkOperands_eq_none.2 ⟨hp, fun n hn => by have := h n hn; omega⟩

theorem checkOperands_cause {i : Instr} {s : State} {c : Cause} (h : checkOperands i s = some c) :
    (c = .stackUnderflow ∧ s.depth < pops i) ∨
      (c = .stackOverflow ∧ pops i ≤ s.depth ∧
        ∃ n, s.params.stackLimit = some n ∧ n < s.depth - pops i + pushes i) := by
  unfold checkOperands at h
  split at h
  · next hd => cases h; exact .inl ⟨rfl, hd⟩
  · next hd =>
    split at h
    · next he => cases h; exact .inr ⟨rfl, by omega, exceeds_eq_true.1 he⟩
    · cases h

/-! ### prepare -/

/-- Everything `prepare` can do when it goes on to the effect. -/
theorem prepare_ok {i : Instr} {s p : State} (h : prepare i s = .ok p) :
    checkOperands i s = none ∧
      ((requiredSize i s = none ∧ p = s.setPc (s.pc + i.width)) ∨
        ∃ r, requiredSize i s = some r ∧ s.fitsMemLimit r ∧
          p = (s.setMem (s.mem.grow r)).setPc (s.pc + i.width)) := by
  unfold prepare at h
  split at h
  · cases h
  · next hc =>
    refine ⟨hc, ?_⟩
    split at h
    · next hr => cases h; exact .inl ⟨hr, rfl⟩
    · next r hr =>
      split at h
      · cases h
      · next he => cases h; exact .inr ⟨r, hr, exceeds_eq_false.1 (by simpa using he), rfl⟩

/-- Everything `prepare` can raise. -/
theorem prepare_error {i : Instr} {s : State} {e : Abort} (h : prepare i s = .error e) :
    (∃ c, checkOperands i s = some c ∧ e = .raised c) ∨
      (checkOperands i s = none ∧ ∃ r l, requiredSize i s = some r ∧ s.params.memLimit = some l ∧ l < r ∧
        e = .raised .memoryLimit) := by
  unfold prepare at h
  split at h
  · next c hc => cases h; exact .inl ⟨c, hc, rfl⟩
  · next hc =>
    split at h
    · cases h
    · next r hr =>
      split at h
      · next he =>
        cases h
        obtain ⟨l, hl, hlt⟩ := exceeds_eq_true.1 he
        exact .inr ⟨hc, r, l, hr, hl, hlt, rfl⟩
      · cases h

theorem prepare_of_check_some {i : Instr} {s : State} {c : Cause} (h : checkOperands i s = some c) :
    prepare i s = .error (.raised c) := by
  rw [prepare, h]

theorem prepare_of_no_size {i : Instr} {s : State} (h : checkOperands i s = none) (hr : requiredSize i s = none) :
    prepare i s = .ok (s.setPc (s.pc + i.width)) := by
  rw [prepare, h, hr]

theorem prepare_of_size {i : Instr} {s : State} {r : Nat} (h : checkOperands i s = none)
    (hr : requiredSize i s = some r) (hf : s.fitsMemLimit r) :
    prepare i s = .ok ((s.setMem (s.mem.grow r)).setPc (s.pc + i.width)) := by
  have he := exceeds_eq_false.2 hf
  simp [prepare, h, hr, he]

theorem prepare_of_too_large {i : Instr} {s : State} {r l : Nat} (h : checkOperands i s = none)
    (hr : requiredSize i s = some r) (hl : s.params.memLimit = some l) (hlt : l < r) :
    prepare i s = .error (.raised .memoryLimit) := by
  have he := exceeds_eq_true.2 ⟨l, hl, hlt⟩
  simp [prepare, h, hr, he]

/-! ### execute -/

/-- Everything `execute` can do when it answers a next state: the effect on the prepared state, or the fault entry on
the state the step started from. -/
theorem execute_next {i : Instr} {effect : State → Except Abort State} {s t : State}
    (h : execute i effect s = .next t) :
    (∃ p, prepare i s = .ok p ∧ effect p = .ok t) ∨
      (∃ c, t = s.raise c s.pc i.opcode ∧
        (prepare i s = .error (.raised c) ∨ ∃ p, prepare i s = .ok p ∧ effect p = .error (.raised c))) := by
  unfold execute at h
  split at h
  · next c hp => cases h; exact .inr ⟨c, rfl, .inl hp⟩
  · cases h
  · next p hp =>
    split at h
    · next c he => cases h; exact .inr ⟨c, rfl, .inr ⟨p, hp, he⟩⟩
    · cases h
    · next u he => cases h; exact .inl ⟨p, hp, he⟩

theorem execute_of_ok {i : Instr} {effect : State → Except Abort State} {s p t : State} (hp : prepare i s = .ok p)
    (he : effect p = .ok t) : execute i effect s = .next t := by
  simp [execute, hp, he]

theorem execute_of_raised {i : Instr} {effect : State → Except Abort State} {s : State} {c : Cause}
    (hp : prepare i s = .error (.raised c)) : execute i effect s = .next (s.raise c s.pc i.opcode) := by
  simp [execute, hp]

/-! ### The effects -/

theorem pop_cons {s : State} {v : Word} {rest : List Word} (h : s.stack = v :: rest) :
    s.pop = .ok (v, s.setStack rest) := by
  simp [State.pop, h]

theorem aluEffect_of_stack {f : Word → Word → Word} {p : State} {a b : Word} {rest : List Word}
    (h : p.stack = a :: b :: rest) : aluEffect f p = .ok (p.setStack (f a b :: rest)) := by
  rw [aluEffect, pop_cons h]
  simp only
  rw [pop_cons (State.setStack_stack p (b :: rest))]
  rfl

theorem mloadEffect_of_stack {p : State} {offset : Word} {rest : List Word} (h : p.stack = offset :: rest)
    (hs : offset.toNat + 32 ≤ p.mem.size) :
    mloadEffect p = .ok (p.setStack (beToWord (p.mem.getBytes offset.toNat 32) :: rest)) := by
  rw [mloadEffect, pop_cons h]
  simp only [State.memRead, State.setStack_mem, readWord?_eq_some p.mem _ hs]
  rfl

theorem mstoreEffect_of_stack {p : State} {offset value : Word} {rest : List Word} (h : p.stack = offset :: value :: rest)
    (hs : offset.toNat + 32 ≤ p.mem.size) :
    mstoreEffect p = .ok ((p.setStack rest).setMem (p.mem.setBytes offset.toNat (wordToBe32 value))) := by
  rw [mstoreEffect, pop_cons h]
  simp only
  rw [pop_cons (State.setStack_stack p (value :: rest))]
  simp only [State.memWriteWord, State.setStack_mem, writeWord?_eq_some p.mem _ _ hs]
  rfl

theorem mstore8Effect_of_stack {p : State} {offset value : Word} {rest : List Word}
    (h : p.stack = offset :: value :: rest) (hs : offset.toNat + 1 ≤ p.mem.size) :
    mstore8Effect p = .ok ((p.setStack rest).setMem (p.mem.setBytes offset.toNat [value.extractLsb' 0 8])) := by
  rw [mstore8Effect, pop_cons h]
  simp only
  rw [pop_cons (State.setStack_stack p (value :: rest))]
  simp only [State.memWriteByte, State.setStack_mem, writeByte?_eq_some p.mem _ _ hs]
  rfl

/-- The effect an instruction found at `addr` has on the prepared state. -/
def effectOf (addr : Nat) : Instr → State → Except Abort State
  | .stop => stopEffect
  | .add => aluEffect aluAdd
  | .mul => aluEffect aluMul
  | .mload => mloadEffect
  | .mstore => mstoreEffect
  | .mstore8 => mstore8Effect
  | .push1 v => pushEffect (Instr.push1 v).imm
  | .push2 v => pushEffect (Instr.push2 v).imm
  | .push32 v => pushEffect (Instr.push32 v).imm
  | .unknown tag => unknownEffect tag addr

/-- Every meaning is its effect inside `execute`. -/
theorem exec_eq_execute (i : Instr) (s : State) : exec i s = execute i (effectOf s.pc i) s := by
  cases i <;> rfl

/-! ### The required size -/

theorem requiredSize_mload {s : State} {offset : Word} {rest : List Word} (h : s.stack = offset :: rest) :
    requiredSize .mload s = some (offset.toNat + 32) := by
  simp [requiredSize, State.peek?, h]

theorem requiredSize_mstore {s : State} {offset : Word} {rest : List Word} (h : s.stack = offset :: rest) :
    requiredSize .mstore s = some (offset.toNat + 32) := by
  simp [requiredSize, State.peek?, h]

theorem requiredSize_mstore8 {s : State} {offset : Word} {rest : List Word} (h : s.stack = offset :: rest) :
    requiredSize .mstore8 s = some (offset.toNat + 1) := by
  simp [requiredSize, State.peek?, h]

/-! ### The step -/

/-- Everything a step can do when it answers a next state. -/
theorem step_next {s t : State} (h : step s = .next t) :
    s.runState = .running ∧
      ((s.mode = .run ∧ s.codeLen ≤ s.pc ∧ t = s.halt) ∨
       (s.mode = .run ∧ s.pc < s.codeLen ∧ s.fetch = .endOfCode ∧ t = s.halt) ∨
       (∃ tag, s.pc < s.codeLen ∧ s.fetch = .outOfBounds tag ∧ t = s.raise .outOfBoundsImmediate s.pc tag) ∨
       (∃ i, s.mode = .run ∧ s.pc < s.codeLen ∧ s.fetch = .op i (s.pc + i.width) ∧ exec i s = .next t) ∨
       (s.mode = .debug ∧ s.fetch = .endOfCode ∧ t = (s.emit OpRecord.endOfCode).halt) ∨
       (∃ i, s.mode = .debug ∧ s.fetch = .op i (s.pc + i.width) ∧
          t = (s.emit (i.record s.pc)).setPc (s.pc + i.width))) := by
  have hop : ∀ i n, s.fetch = .op i n → n = s.pc + i.width := fun i n hf => (fetchDecode_op hf).2.2.1
  have hoob : ∀ tag, s.fetch = .outOfBounds tag → s.pc < s.codeLen := by
    intro tag hf
    rcases fetchDecode_cases s.params.oobImmPolicy s.code s.pc with ⟨_, he⟩ | ⟨u, av, hb, _, _⟩ | ⟨u, av, _, _, _, he⟩
    · rw [State.fetch, he] at hf; cases hf
    · have := congrArg List.length hb
      simp only [List.length_drop, List.length_cons] at this
      simp only [State.codeLen]; omega
    · rw [State.fetch, he] at hf; cases hf
  unfold step at h
  split at h
  · cases h
  · cases h
  · next hr =>
    refine ⟨hr, ?_⟩
    split at h
    · next hm =>
      unfold runStep at h
      split at h
      · next hp => cases h; exact .inl ⟨hm, hp, rfl⟩
      · next hp =>
        split at h
        · next hf => cases h; exact .inr (.inl ⟨hm, by omega, hf, rfl⟩)
        · next tag hf => cases h; exact .inr (.inr (.inl ⟨tag, hoob tag hf, hf, rfl⟩))
        · next i n hf =>
          have hn := hop i n hf
          exact .inr (.inr (.inr (.inl ⟨i, hm, by omega, by rw [hf, hn], h⟩)))
    · next hm =>
      unfold debugStep at h
      split at h
      · next hf => cases h; exact .inr (.inr (.inr (.inr (.inl ⟨hm, hf, rfl⟩))))
      · next tag hf => cases h; exact .inr (.inr (.inl ⟨tag, hoob tag hf, hf, rfl⟩))
      · next i n hf =>
        have hn := hop i n hf
        cases h
        exact .inr (.inr (.inr (.inr (.inr ⟨i, hm, by rw [hf, hn], by rw [hn]⟩))))

end Sys2Proof.Machine
end

