-- ==== Sys2Proof/Laws/PerInstr.lean ====
section
/-!
SUPPORT. The statements made of every instruction as syntax, one lemma per constructor.
-/
namespace Sys2Proof.Laws.Width

/-- An instruction's bytes are its opcode byte and then as many immediate bytes as that byte announces
(30_encoding.md R63, R67). -/
def Statement (i : Instr) : Prop :=
  i.wf = true → ∃ imm, encode i = i.opcode :: imm ∧ imm.length = immLength i.opcode ∧ i.width = 1 + imm.length

theorem stop : Statement .stop := fun _ => ⟨[], rfl, rfl, rfl⟩
theorem add : Statement .add := fun _ => ⟨[], rfl, rfl, rfl⟩
theorem mul : Statement .mul := fun _ => ⟨[], rfl, rfl, rfl⟩
theorem mload : Statement .mload := fun _ => ⟨[], rfl, rfl, rfl⟩
theorem mstore : Statement .mstore := fun _ => ⟨[], rfl, rfl, rfl⟩
theorem mstore8 : Statement .mstore8 := fun _ => ⟨[], rfl, rfl, rfl⟩
theorem push1 (imm : BitVec 8) : Statement (.push1 imm) := fun _ => ⟨_, rfl, rfl, rfl⟩
theorem push2 (imm : BitVec 16) : Statement (.push2 imm) := fun _ => ⟨_, rfl, rfl, rfl⟩
theorem push32 (imm : BitVec 256) : Statement (.push32 imm) :=
  fun _ => ⟨_, rfl, by simp [Instr.opcode, immLength], by simp [Instr.width]⟩
theorem unknown (tag : Byte) : Statement (.unknown tag) := by
  intro h
  refine ⟨[], rfl, ?_, rfl⟩
  simp only [Instr.wf, instructionOpcodes, List.contains_eq_mem, List.mem_cons, List.not_mem_nil, or_false,
    Bool.not_eq_true', decide_eq_false_iff_not, not_or] at h
  obtain ⟨-, -, -, -, -, -, h60, h61, h7f⟩ := h
  rw [Instr.opcode, immLength, if_neg h60, if_neg h61, if_neg h7f]
  rfl

end Sys2Proof.Laws.Width
end

