-- ==== Sys2Proof/Tests/Slice0.lean ====
section
/-!
SUPPORT. Tests of the model, and a witness of the hypotheses of every statement of Certificates/Slice0/Obligations.lean that
has some. Expected values are from the spec: 30_encoding.md R65 and the vectors of 95_test_vectors.md, named in each
docstring; they are not the model's own answers.
-/
namespace Sys2Proof.Tests

open Sys2Proof Sys2Proof.Machine

/-! ### Helpers -/

/-- The state an outcome goes on to. -/
def nextOf : Host.Outcome State Fault Refusal → Option State
  | .next s => some s
  | .fault _ => none
  | .refused _ => none

/-- A Running run-mode state with pc 5, the given stack, and memory that lists nothing. -/
def withStack (stack : List Word) : State :=
  { State.reset with pc := 5, stack := stack }

/-- The same with limits. -/
def withLimits (stackLimit memLimit : Option Nat) (stack : List Word) : State :=
  { withStack stack with params := { oobImmPolicy := .fault, stackLimit := stackLimit, memLimit := memLimit } }

/-- The state after a reset with the default limits and the given policy, with pc moved to `pc`. -/
def withCode (bytes : List Byte) (mode : Mode) (policy : OobImmPolicy) (pc : Nat) : State :=
  { State.resetWith bytes mode { Params.defaults with oobImmPolicy := policy } with pc := pc }

/-- W = 2^256 - 1. -/
def maxWord : Word := BitVec.allOnes 256

/-! ### WellFormed: each check, with a term it refuses -/

/-- An UNKNOWN that carries the opcode byte of any of the nine instructions is refused. -/
theorem test_wf_refuses_unknown_of_each_instruction :
    (instructionOpcodes.map fun t => (Instr.unknown t).wf) = List.replicate 9 false := by decide

theorem test_wf_accepts : ([.stop, .push1 0xff, .push32 maxWord, .unknown 0x03, .unknown 0xff] : List Instr).all
    Instr.wf = true := by decide

/-! ### Decoding: words written out from the encoding table (30_encoding.md R64, R65) -/

theorem test_decode_stop : decode [0b00000000#8] = .instr .stop [] := by decide
theorem test_decode_add : decode [0b00000001#8] = .instr .add [] := by decide
theorem test_decode_mul : decode [0b00000010#8] = .instr .mul [] := by decide
theorem test_decode_mload : decode [0b01010001#8] = .instr .mload [] := by decide
theorem test_decode_mstore : decode [0b01010010#8] = .instr .mstore [] := by decide
theorem test_decode_mstore8 : decode [0b01010011#8] = .instr .mstore8 [] := by decide
theorem test_decode_push1 : decode [0b01100000#8, 0b00101010#8] = .instr (.push1 0x2a) [] := by decide
/-- Not 0x1212 and not 0x3412 (vector P2-3). -/
theorem test_decode_push2 : decode [0b01100001#8, 0b00010010#8, 0b00110100#8] = .instr (.push2 0x1234) [] := by decide
/-- The first immediate byte is the most significant, the last the least (P32-2, P32-3). -/
theorem test_decode_push32 :
    decode (0b01111111#8 :: 0x80 :: (List.replicate 30 0x00 ++ [0x01])) =
      .instr (.push32 0x8000000000000000000000000000000000000000000000000000000000000001) [] := by decide +kernel
/-- The edges of the UNKNOWN ranges (FD-12 to FD-19); no byte after them is consumed. -/
theorem test_decode_unknown : ∀ t ∈ ([0x03, 0x50, 0x54, 0x5f, 0x62, 0x7e, 0x80, 0xff] : List Byte),
    decode [t, 0x01] = .instr (.unknown t) [0x01] := by decide
theorem test_decode_no_bytes : decode [] = .noBytes := by decide
theorem test_decode_short : decode [0x61, 0xff] = .shortImmediate 0x61 2 [0xff] := by decide

/-- The kind an opcode byte decodes to, and its width, with 32 bytes after it. -/
def kindAndWidth (t : Byte) : Option (Kind × Nat) :=
  match decode (t :: List.replicate 32 0x00) with
  | .instr i _ => some (i.kind, i.width)
  | .noBytes => none
  | .shortImmediate _ _ _ => none

/-- A row of spec/opcode_table.json: mask, match, kind, length. -/
structure TableRow where
  mask  : Byte
  value : Byte
  kind  : Kind
  width : Nat
deriving DecidableEq, Repr

/-- The rows of the nine instructions. -/
def instructionRows : List TableRow :=
  [⟨0xff, 0x00, .stop, 1⟩, ⟨0xff, 0x01, .add, 1⟩, ⟨0xff, 0x02, .mul, 1⟩,
    ⟨0xff, 0x51, .mload, 1⟩, ⟨0xff, 0x52, .mstore, 1⟩, ⟨0xff, 0x53, .mstore8, 1⟩,
    ⟨0xff, 0x60, .push1, 2⟩, ⟨0xff, 0x61, .push2, 3⟩, ⟨0xff, 0x7f, .push32, 33⟩]

/-- The rows of UNKNOWN. -/
def unknownRows : List TableRow :=
  [⟨0xff, 0x03, .unknown, 1⟩, ⟨0xfc, 0x04, .unknown, 1⟩, ⟨0xf8, 0x08, .unknown, 1⟩,
    ⟨0xf0, 0x10, .unknown, 1⟩, ⟨0xe0, 0x20, .unknown, 1⟩, ⟨0xf0, 0x40, .unknown, 1⟩,
    ⟨0xff, 0x50, .unknown, 1⟩, ⟨0xfc, 0x54, .unknown, 1⟩, ⟨0xf8, 0x58, .unknown, 1⟩,
    ⟨0xfe, 0x62, .unknown, 1⟩, ⟨0xfc, 0x64, .unknown, 1⟩, ⟨0xf8, 0x68, .unknown, 1⟩,
    ⟨0xf8, 0x70, .unknown, 1⟩, ⟨0xfc, 0x78, .unknown, 1⟩, ⟨0xfe, 0x7c, .unknown, 1⟩,
    ⟨0xff, 0x7e, .unknown, 1⟩, ⟨0x80, 0x80, .unknown, 1⟩]

/-- Every byte matches exactly one row, and decodes to that row's kind with that row's width. -/
theorem test_table_rows_agree_with_decoder : (List.range 256).all (fun n =>
    let t := BitVec.ofNat 8 n
    match (instructionRows ++ unknownRows).filter (fun r => t &&& r.mask == r.value) with
    | [r] => kindAndWidth t == some (r.kind, r.width)
    | _ => false) = true := by decide +kernel

/-- The table's bits of PUSH2 0x1234: bit 0 is the least significant bit of the first byte. -/
theorem test_table_word_push2 : decodeTableWord 24 0x341261 = some (.push2 0x1234) := by decide +kernel
/-- Bits above nbits are zero. -/
theorem test_table_word_truncates : decodeTableWord 8 0x341261 = some (.push2 0x0000) := by decide +kernel

/-! ### Fetch-decode (95_test_vectors.md 2.1) -/

/-- FD-20. -/
theorem test_fetch_at_pc : fetchDecode .fault [0x00, 0x60, 0x01] 1 = .op (.push1 0x01) 3 := by decide
/-- FD-25: the missing byte is the least significant. -/
theorem test_fetch_zero_pad : fetchDecode .zeroPad [0x61, 0xff] 0 = .op (.push2 0xff00) 3 := by decide
/-- FD-24, FD-28, FD-30. -/
theorem test_fetch_short_and_end : fetchDecode .fault [0x61, 0xff] 0 = .outOfBounds 0x61 ∧
    fetchDecode .endRun [0x7f, 0x01, 0x02] 0 = .endOfCode ∧ fetchDecode .zeroPad [0x61, 0xff] 3 = .endOfCode := by decide

/-! ### One step of each instruction -/

/-- CT-3. -/
theorem test_stop_halts : nextOf (step (withCode [0x00] .run .fault 0)) =
    some { withCode [0x00] .run .fault 1 with runState := .halted } := by decide
/-- CT-4: debug mode goes on after STOP. -/
theorem test_stop_debug : nextOf (step (withCode [0x00] .debug .fault 0)) =
    some { withCode [0x00] .debug .fault 1 with events := [⟨.stop, some 0, some 0x00, 0⟩] } := by decide
/-- ALU-6: deeper entries untouched. -/
theorem test_add : nextOf (exec .add (withStack [0x5, 0x9, 0x77])) =
    some { withStack [0xe, 0x77] with pc := 6 } := by decide +kernel
/-- ALU-4. -/
theorem test_add_wraps : nextOf (exec .add (withStack [maxWord, maxWord])) =
    some { withStack [0xfffffffffffffffffffffffffffffffffffffffffffffffffffffffffffffffe] with pc := 6 } := by
  decide +kernel
/-- ALU-16. -/
theorem test_mul : nextOf (exec .mul (withStack [2 ^ 128 - 1, 2 ^ 128 + 1])) =
    some { withStack [maxWord] with pc := 6 } := by decide +kernel
/-- ALU-17: the one word is kept. -/
theorem test_mul_underflow : nextOf (exec .mul (withStack [0x7])) =
    some { withStack [0x7] with runState := .faulted, faultCause := 1, faultPc := 5, faultOpcode := 0x02 } := by decide
/-- MEM-2: MSIZE is not rounded. -/
theorem test_mload_grows : nextOf (exec .mload (withStack [0x5])) =
    some { withStack [0x0] with pc := 6, mem := ⟨37, []⟩ } := by decide +kernel
/-- Program 2, step 7: big-endian, unaligned, past the end of memory. -/
theorem test_mload_unaligned :
    nextOf (exec .mload { withStack [0x2, 0x12] with mem := ⟨33, [(31, 0x12), (32, 0x34)]⟩ }) =
      some { withStack [0x123400, 0x12] with pc := 6, mem := ⟨34, [(31, 0x12), (32, 0x34)]⟩ } := by decide +kernel
/-- MEM-5. -/
theorem test_mstore_unaligned : nextOf (exec .mstore (withStack [0x1, 0x2a])) =
    some { withStack [] with pc := 6, mem := ⟨33, [(32, 0x2a)]⟩ } := by decide +kernel
/-- MEM-13: required size 287 > 256. -/
theorem test_mstore_over_limit : nextOf (exec .mstore (withLimits none (some 256) [0xff, 0x0])) =
    some { withLimits none (some 256) [0xff, 0x0] with
      runState := .faulted, faultCause := 3, faultPc := 5, faultOpcode := 0x52 } := by decide +kernel
/-- MEM-4: the low byte only. -/
theorem test_mstore8_low_byte : nextOf (exec .mstore8 (withStack [0x0, 0x1234])) =
    some { withStack [] with pc := 6, mem := ⟨1, [(0, 0x34)]⟩ } := by decide +kernel
/-- MEM-18: the top of the address range. -/
theorem test_mstore8_top : nextOf (exec .mstore8 (withStack [maxWord, 0x1])) =
    some { withStack [] with pc := 6, mem := ⟨2 ^ 256, [(2 ^ 256 - 1, 0x01)]⟩ } := by decide +kernel
/-- P1-3: no sign extension. -/
theorem test_push1 : nextOf (step (withCode [0x60, 0xff] .run .fault 0)) =
    some { withCode [0x60, 0xff] .run .fault 2 with stack := [0xff] } := by decide +kernel
/-- P-OVF-1, its last step. -/
theorem test_push1_overflow : nextOf (exec (.push1 0x03) (withLimits (some 2) none [0x2, 0x1])) =
    some { withLimits (some 2) none [0x2, 0x1] with
      runState := .faulted, faultCause := 4, faultPc := 5, faultOpcode := 0x60 } := by decide
/-- P2-3. -/
theorem test_push2 : nextOf (step (withCode [0x61, 0x12, 0x34] .run .fault 0)) =
    some { withCode [0x61, 0x12, 0x34] .run .fault 3 with stack := [0x1234] } := by decide +kernel
/-- P2-4, its last step. -/
theorem test_push2_truncated : nextOf (step (withCode [0x60, 0x01, 0x61, 0xff] .run .fault 2)) =
    some { withCode [0x60, 0x01, 0x61, 0xff] .run .fault 2 with
      runState := .faulted, faultCause := 2, faultPc := 2, faultOpcode := 0x61 } := by decide +kernel
/-- P32-1. -/
theorem test_push32 : (nextOf (step (withCode (0x7f :: List.replicate 32 0xff) .run .fault 0))).map
    (fun t => (t.pc, t.stack, t.runState)) = some (33, [maxWord], .running) := by decide +kernel
/-- P32-5. -/
theorem test_push32_zero_pad : (nextOf (step (withCode [0x7f, 0x01, 0x02] .run .zeroPad 0))).map
    (fun t => (t.pc, t.stack, t.runState)) = some (33, [0x0102 * 256 ^ 30], .running) := by decide +kernel
/-- CT-9 and CT-7, their first step. -/
theorem test_unknown : nextOf (step (withCode [0x62, 0x01] .run .fault 0)) =
    some { withCode [0x62, 0x01] .run .fault 1 with events := [⟨.unknown, some 0, some 0x62, 0⟩] } := by decide
/-- CT-11: an immediate out of bounds faults in debug mode too. -/
theorem test_debug_out_of_bounds : nextOf (step (withCode [0x60] .debug .fault 0)) =
    some { withCode [0x60] .debug .fault 0 with
      runState := .faulted, faultCause := 2, faultPc := 0, faultOpcode := 0x60 } := by decide
/-- FLT-8. -/
theorem test_no_step_after_fault : step { withCode [0x01] .run .fault 0 with runState := .faulted } =
    .fault .noStepFromFaulted := rfl

/-- A word of the opcode table runs as the first instruction after reset. -/
theorem test_fetch_word_runs : (nextOf (step (State.reset.withFetchWord 16 0x2a60))).map
    (fun t => (t.pc, t.stack)) = some (2, [0x2a]) := by decide +kernel

/-- S1 to S3. -/
theorem test_hex : hexDecode ['6', 'A', '2', 'b'] = .ok [0x6a, 0x2b] ∧ hexDecode ['6', '0', '0'] = .error (.oddLength 3) ∧
    hexDecode ['6', '0', 'z', 'z'] = .error (.badPair 2) := ⟨rfl, rfl, rfl⟩

/-- The notation of 30_encoding.md R78: program MEM-8. -/
theorem test_assemble : assemble [.instr (.push1 0x00), .instr .mload, .instr (.push1 0x20), .instr .mload,
    .rawByte 0x59, .rawByte 0x59] = [0x60, 0x00, 0x51, 0x60, 0x20, 0x51, 0x59, 0x59] := by decide

/-- The numbers of MODE, RUN_STATE and FAULT_CAUSE (10_state.md R28, R29, 60_exceptions.md R110). -/
theorem test_codes : [Mode.run, .debug].map Mode.code = [0, 1] ∧
    [RunState.running, .halted, .faulted].map RunState.code = [0, 1, 2] ∧
    [Cause.stackUnderflow, .outOfBoundsImmediate, .memoryLimit, .stackOverflow].map Cause.code = [1, 2, 3, 4] := by decide

/-- 70_reset_and_hazards.md R128: the arguments are checked first, then the file. -/
theorem test_boot_order : boot Params.defaults none (some ['r', 'u', 'n']) (fun _ => none) = .error .invalidArguments ∧
    boot Params.defaults (some ['p']) (some ['r', 'u', 'n']) (fun _ => none) = .error .ioError ∧
    boot Params.defaults (some ['p']) (some ['r', 'u', 'n']) (fun _ => some ['0', '0']) =
      .ok (State.resetWith [0x00] .run Params.defaults) := ⟨rfl, rfl, rfl⟩

/-! ### Witnesses: the hypotheses of each statement can be met -/

theorem withinStackLimit_of_none {s : State} (h : s.params.stackLimit = none) : s.withinStackLimit :=
  fun n hn => by rw [h] at hn; cases hn

theorem withinStackLimit_of_some {s : State} {k : Nat} (h : s.params.stackLimit = some k) (hd : s.depth ≤ k) :
    s.withinStackLimit :=
  fun n hn => by rw [h] at hn; cases hn; exact hd

theorem fitsMemLimit_of_none {s : State} (h : s.params.memLimit = none) (r : Nat) : s.fitsMemLimit r :=
  fun l hl => by rw [h] at hl; cases hl

theorem fitsMemLimit_of_some {s : State} {k r : Nat} (h : s.params.memLimit = some k) (hr : r ≤ k) : s.fitsMemLimit r :=
  fun l hl => by rw [h] at hl; cases hl; exact hr

theorem witness_BigEndianConversionsAreInverse : ([] : List Byte).length ≤ 32 ∧
    (List.replicate 32 0xff : List Byte).length ≤ 32 ∧ (List.replicate 32 0xff : List Byte).length = 32 ∧
    beToWord (List.replicate 32 0xff) = maxWord := by decide +kernel

theorem witness_EncodeThenDecodeGivesInstrBack : ([.stop, .add, .mul, .mload, .mstore, .mstore8, .push1 0xff,
    .push2 0x8001, .push32 maxWord, .unknown 0x62] : List Instr).all Instr.wf = true := by decide

theorem witness_DecodeThenEncodeGivesBytesBack :
    decode (0x7f :: (List.replicate 32 0xff ++ [0x01])) = .instr (.push32 maxWord) [0x01] ∧
    decode [0xff] = .instr (.unknown 0xff) [] := by decide +kernel

theorem witness_OpcodeMapOfEveryByte : (List.replicate 32 0x00 : List Byte).length = 32 ∧
    ∀ t ∈ ([0x03, 0x50, 0x54, 0x5f, 0x62, 0x7e, 0x80, 0xff] : List Byte),
      (0x03 ≤ t.toNat ∧ t.toNat ≤ 0x50) ∨ (0x54 ≤ t.toNat ∧ t.toNat ≤ 0x5f) ∨
        (0x62 ≤ t.toNat ∧ t.toNat ≤ 0x7e) ∨ 0x80 ≤ t.toNat := by decide

/-- The number of immediate bytes the statement's hypothesis asks for. -/
theorem witness_ImmediateIsBigEndianZeroExtended : ∀ p ∈ ([(0x60, 1), (0x61, 2), (0x7f, 32), (0x00, 0), (0xff, 0)] :
    List (Byte × Nat)), (List.replicate p.2 0xff : List Byte).length =
      (if p.1 = 0x60 then 1 else if p.1 = 0x61 then 2 else if p.1 = 0x7f then 32 else 0) := by decide

theorem witness_FetchDecodeReadsInstrAtPc : (Instr.push32 maxWord).wf = true ∧ (Instr.unknown 0x7e).wf = true := by decide

theorem witness_EndIsDecodedExactlyPastTheCode : ([0x01] : List Byte).length ≤ 1 ∧ ([0x01] : List Byte).length ≤ 33 ∧
    OobImmPolicy.fault ≠ .endRun ∧ OobImmPolicy.zeroPad ≠ .endRun ∧ 0 < ([0x60] : List Byte).length := by decide

/-- No byte and one byte too few, for each push. -/
theorem witness_TruncatedImmediateFollowsPolicy : ∀ p ∈ ([(0x60, 1, 0), (0x61, 2, 0), (0x61, 2, 1), (0x7f, 32, 0),
    (0x7f, 32, 31)] : List (Byte × Nat × Nat)),
    ((p.1 = 0x60 ∧ p.2.1 = 1) ∨ (p.1 = 0x61 ∧ p.2.1 = 2) ∨ (p.1 = 0x7f ∧ p.2.1 = 32)) ∧
    (List.replicate p.2.2 0xff : List Byte).length < p.2.1 := by decide

theorem witness_RunStepExecutesInstrAtPc :
    let s := withCode [0x00, 0x61, 0x12, 0x34, 0x01] .run .fault 1
    s.runState = .running ∧ s.mode = .run ∧ (Instr.push2 0x1234).wf = true ∧
      s.code.drop s.pc = encode (.push2 0x1234) ++ [0x01] := by decide

theorem witness_RunStepHaltsAtEndOfCode :
    let s := withCode [0x01] .run .fault 1
    let t := withCode [0x61, 0xff] .run .zeroPad 3
    s.runState = .running ∧ s.mode = .run ∧ s.codeLen ≤ s.pc ∧
      t.runState = .running ∧ t.mode = .run ∧ t.codeLen ≤ t.pc := by decide

theorem witness_DebugStepEmitsRecordOfInstrAtPc :
    let s := withCode [0x00, 0xff] .debug .fault 1
    let t := withCode [0x00, 0xff] .debug .fault 2
    s.runState = .running ∧ s.mode = .debug ∧ (Instr.unknown 0xff).wf = true ∧
      s.code.drop s.pc = encode (.unknown 0xff) ++ [] ∧
      t.runState = .running ∧ t.mode = .debug ∧ t.codeLen ≤ t.pc := by decide

/-- A walking step, and a faulting one. -/
theorem witness_DebugStepTouchesNoStackOrMemory :
    (∃ t, (withCode [0x01] .debug .fault 0).mode = .debug ∧ step (withCode [0x01] .debug .fault 0) = .next t) ∧
    ∃ t, (withCode [0x60] .debug .fault 0).mode = .debug ∧ step (withCode [0x60] .debug .fault 0) = .next t ∧
      t.runState = .faulted :=
  ⟨⟨_, rfl, rfl⟩, ⟨_, rfl, rfl, rfl⟩⟩

theorem witness_DebugStepIsBlindToStackAndMemory :
    ∃ t, (withCode [0x52] .debug .fault 0).mode = .debug ∧ step (withCode [0x52] .debug .fault 0) = .next t :=
  ⟨_, rfl, rfl⟩

/-- One byte too few, for each policy and each mode. -/
theorem witness_TruncatedPushStepInBothModes :
    ∀ policy ∈ [OobImmPolicy.fault, .endRun, .zeroPad], ∀ mode ∈ [Mode.run, .debug],
      let s := withCode [0x01, 0x61, 0xff] mode policy 1
      s.runState = .running ∧ s.code.drop s.pc = 0x61 :: [0xff] ∧ ([0xff] : List Byte).length < 2 ∧
        s.params.oobImmPolicy = policy ∧ s.mode = mode := by decide

theorem witness_RunningBlockAlwaysHasNextState : State.reset.runState = .running := rfl

theorem witness_NoStepFromHaltedOrFaulted : { State.reset with runState := .halted }.runState = .halted ∧
    { State.reset with runState := .faulted }.runState = .faulted := ⟨rfl, rfl⟩

/-- No limit; depth exactly at STACK_LIMIT; too few operands at depth 1 and 0. -/
theorem witness_AddReplacesTopTwoBySum :
    ((withStack [maxWord, 0x1]).stack = maxWord :: 0x1 :: [] ∧ (withStack [maxWord, 0x1]).withinStackLimit) ∧
    ((withLimits (some 2) none [0x1, 0x1]).stack = 0x1 :: 0x1 :: [] ∧
      (withLimits (some 2) none [0x1, 0x1]).withinStackLimit) ∧
    (withStack [0x1]).depth < 2 ∧ (withStack []).depth < 2 :=
  ⟨⟨rfl, withinStackLimit_of_none rfl⟩, ⟨rfl, withinStackLimit_of_some (k := 2) rfl (by decide)⟩, by decide, by decide⟩

theorem witness_MulReplacesTopTwoByProduct :
    ((withStack [maxWord, maxWord]).stack = maxWord :: maxWord :: [] ∧ (withStack [maxWord, maxWord]).withinStackLimit) ∧
    ((withLimits (some 3) none [0x2, 0x3, 0x4]).stack = 0x2 :: 0x3 :: [0x4] ∧
      (withLimits (some 3) none [0x2, 0x3, 0x4]).withinStackLimit) ∧
    (withStack [0x1]).depth < 2 ∧ (withStack []).depth < 2 :=
  ⟨⟨rfl, withinStackLimit_of_none rfl⟩, ⟨rfl, withinStackLimit_of_some (k := 3) rfl (by decide)⟩, by decide, by decide⟩

/-- n at MSIZE and one above it; the addresses where the three clauses meet. -/
theorem witness_GrowZeroFillsAndNeverShrinks :
    let m : Memory := ⟨32, [(31, 0x2a)]⟩
    32 ≤ m.size ∧ m.size < 33 ∧ 31 < m.size ∧ (m.size ≤ 32 ∧ 32 < 33) ∧ 33 ≤ 33 := by decide

/-- MEM_LIMIT exactly met; the greatest offset without a limit; an empty stack; MEM_LIMIT one too small. -/
theorem witness_MloadPushesBigEndianWord :
    ((withLimits (some 1) (some 37) [0x5]).stack = 0x5 :: [] ∧ (withLimits (some 1) (some 37) [0x5]).withinStackLimit ∧
      (withLimits (some 1) (some 37) [0x5]).fitsMemLimit ((0x5 : Word).toNat + 32)) ∧
    ((withStack [maxWord]).stack = maxWord :: [] ∧ (withStack [maxWord]).withinStackLimit ∧
      (withStack [maxWord]).fitsMemLimit (maxWord.toNat + 32)) ∧
    (withStack []).depth = 0 ∧
    ((withLimits none (some 36) [0x5]).stack = 0x5 :: [] ∧ (withLimits none (some 36) [0x5]).withinStackLimit ∧
      (withLimits none (some 36) [0x5]).params.memLimit = some 36 ∧ 36 < (0x5 : Word).toNat + 32) :=
  ⟨⟨rfl, withinStackLimit_of_some (k := 1) rfl (by decide), fitsMemLimit_of_some (k := 37) rfl (by decide)⟩,
    ⟨rfl, withinStackLimit_of_none rfl, fitsMemLimit_of_none rfl _⟩, rfl,
    ⟨rfl, withinStackLimit_of_none rfl, rfl, by decide⟩⟩

theorem witness_MstoreWritesBigEndianWord :
    ((withLimits (some 2) (some 33) [0x1, 0x2a]).stack = 0x1 :: 0x2a :: [] ∧
      (withLimits (some 2) (some 33) [0x1, 0x2a]).withinStackLimit ∧
      (withLimits (some 2) (some 33) [0x1, 0x2a]).fitsMemLimit ((0x1 : Word).toNat + 32)) ∧
    ((withStack [maxWord, 0x1]).stack = maxWord :: 0x1 :: [] ∧ (withStack [maxWord, 0x1]).withinStackLimit ∧
      (withStack [maxWord, 0x1]).fitsMemLimit (maxWord.toNat + 32)) ∧
    ((0 : Nat) < (0x1 : Word).toNat ∧ (0x1 : Word).toNat + 32 ≤ 33) ∧
    ((withStack [0x1]).depth < 2 ∧ (withStack []).depth < 2) ∧
    ((withLimits none (some 32) [0x1, 0x2a]).stack = 0x1 :: 0x2a :: [] ∧
      (withLimits none (some 32) [0x1, 0x2a]).withinStackLimit ∧
      (withLimits none (some 32) [0x1, 0x2a]).params.memLimit = some 32 ∧ 32 < (0x1 : Word).toNat + 32) :=
  ⟨⟨rfl, withinStackLimit_of_some (k := 2) rfl (by decide), fitsMemLimit_of_some (k := 33) rfl (by decide)⟩,
    ⟨rfl, withinStackLimit_of_none rfl, fitsMemLimit_of_none rfl _⟩, by decide, by decide,
    ⟨rfl, withinStackLimit_of_none rfl, rfl, by decide⟩⟩

theorem witness_Mstore8WritesLowByte :
    ((withLimits (some 2) (some 1) [0x0, 0x1234]).stack = 0x0 :: 0x1234 :: [] ∧
      (withLimits (some 2) (some 1) [0x0, 0x1234]).withinStackLimit ∧
      (withLimits (some 2) (some 1) [0x0, 0x1234]).fitsMemLimit ((0x0 : Word).toNat + 1)) ∧
    ((withStack [maxWord, 0x1]).stack = maxWord :: 0x1 :: [] ∧ (withStack [maxWord, 0x1]).withinStackLimit ∧
      (withStack [maxWord, 0x1]).fitsMemLimit (maxWord.toNat + 1)) ∧
    (1 ≠ (0x0 : Word).toNat) ∧
    ((withStack [0x1]).depth < 2 ∧ (withStack []).depth < 2) ∧
    ((withLimits none (some 0) [0x0, 0x1234]).stack = 0x0 :: 0x1234 :: [] ∧
      (withLimits none (some 0) [0x0, 0x1234]).withinStackLimit ∧
      (withLimits none (some 0) [0x0, 0x1234]).params.memLimit = some 0 ∧ 0 < (0x0 : Word).toNat + 1) :=
  ⟨⟨rfl, withinStackLimit_of_some (k := 2) rfl (by decide), fitsMemLimit_of_some (k := 1) rfl (by decide)⟩,
    ⟨rfl, withinStackLimit_of_none rfl, fitsMemLimit_of_none rfl _⟩, by decide, by decide,
    ⟨rfl, withinStackLimit_of_none rfl, rfl, by decide⟩⟩

theorem witness_StoreThenLoadReturnsWord :
    (withLimits (some 3) (some 33) [0x1, 0x2a, 0x1]).stack = 0x1 :: 0x2a :: 0x1 :: [] ∧
    (withLimits (some 3) (some 33) [0x1, 0x2a, 0x1]).withinStackLimit ∧
    (withLimits (some 3) (some 33) [0x1, 0x2a, 0x1]).fitsMemLimit ((0x1 : Word).toNat + 32) :=
  ⟨rfl, withinStackLimit_of_some (k := 3) rfl (by decide), fitsMemLimit_of_some (k := 33) rfl (by decide)⟩

/-- The stored byte first and last in the loaded word. -/
theorem witness_StoredByteSeenInLoadedWord :
    ∀ a ∈ ([0x1, 0x20] : List Word),
      let s := withLimits (some 3) (some 33) [a, 0xff, 0x1]
      s.stack = a :: 0xff :: 0x1 :: [] ∧ s.withinStackLimit ∧ s.fitsMemLimit ((0x1 : Word).toNat + 32) ∧
        (0x1 : Word).toNat ≤ a.toNat ∧ a.toNat ≤ (0x1 : Word).toNat + 31 := by
  intro a ha
  exact ⟨rfl, withinStackLimit_of_some (k := 3) rfl (Nat.le_refl 3), fitsMemLimit_of_some (k := 33) rfl (by decide), by
    simp only [List.mem_cons, List.not_mem_nil, or_false] at ha
    rcases ha with rfl | rfl <;> decide⟩

/-- A word access, a byte access, and an instruction that touches no memory. -/
theorem witness_MsizeIsMaxWithRequiredSize :
    (∃ t, (withCode [0x60, 0x05] .run .fault 0).fetch = .op (.push1 0x05) 2 ∧
      step (withCode [0x60, 0x05] .run .fault 0) = .next t ∧ t.runState ≠ .faulted) ∧
    (∃ t, { withCode [0x51] .run .fault 0 with stack := [0x5] }.fetch = .op .mload 1 ∧
      step { withCode [0x51] .run .fault 0 with stack := [0x5] } = .next t ∧ t.runState ≠ .faulted) ∧
    ∃ t, { withCode [0x53] .run .fault 0 with stack := [0x0, 0xff] }.fetch = .op .mstore8 1 ∧
      step { withCode [0x53] .run .fault 0 with stack := [0x0, 0xff] } = .next t ∧ t.runState ≠ .faulted :=
  ⟨⟨_, rfl, rfl, by decide⟩, ⟨_, rfl, rfl, by decide +kernel⟩, ⟨_, rfl, rfl, by decide +kernel⟩⟩

theorem witness_OnlyMemoryInstructionsChangeMemory :
    ∃ t, step { withCode [0x51] .run .fault 0 with stack := [0x0] } = .next t ∧
      (t.mem.size ≠ 0 ∨ ∃ a : Nat, t.mem.byte? a ≠ Memory.empty.byte? a) :=
  ⟨_, rfl, Or.inl (by decide +kernel)⟩

theorem witness_CanonicalMemoriesReadAlikeAreEqual : (⟨32, [(0, 0xff), (31, 0x2a)]⟩ : Memory).wf ∧
    Memory.empty.wf := by decide

/-- Each push: no limit; one below the limit; at the limit, 0 among them. -/
theorem witness_Push1PushesOneByte :
    (∀ n, (withStack []).params.stackLimit = some n → (withStack []).depth < n) ∧
    ((withLimits (some 2) none [0x1]).params.stackLimit = some 2 ∧ (withLimits (some 2) none [0x1]).depth < 2) ∧
    ((withLimits (some 2) none [0x2, 0x1]).params.stackLimit = some 2 ∧ 2 ≤ (withLimits (some 2) none [0x2, 0x1]).depth) ∧
    ((withLimits (some 0) none []).params.stackLimit = some 0 ∧ 0 ≤ (withLimits (some 0) none []).depth) :=
  ⟨fun n h => by simp [withStack, State.reset, Params.defaults] at h, by decide, by decide, by decide⟩

theorem witness_Push2PushesTwoBytes :
    (∀ n, (withStack []).params.stackLimit = some n → (withStack []).depth < n) ∧
    ((withLimits (some 1) none [0x1]).params.stackLimit = some 1 ∧ 1 ≤ (withLimits (some 1) none [0x1]).depth) :=
  ⟨fun n h => by simp [withStack, State.reset, Params.defaults] at h, by decide⟩

theorem witness_Push32PushesWholeWord :
    (∀ n, (withStack []).params.stackLimit = some n → (withStack []).depth < n) ∧
    ((withLimits (some 1) none [0x1]).params.stackLimit = some 1 ∧ 1 ≤ (withLimits (some 1) none [0x1]).depth) :=
  ⟨fun n h => by simp [withStack, State.reset, Params.defaults] at h, by decide⟩

theorem witness_StopHaltsRunModeOnly :
    ((withCode [0x00, 0x60] .run .fault 0).withinStackLimit ∧ (withCode [0x00, 0x60] .run .fault 0).runState = .running ∧
      (withCode [0x00, 0x60] .run .fault 0).mode = .run ∧
      (withCode [0x00, 0x60] .run .fault 0).code.drop (withCode [0x00, 0x60] .run .fault 0).pc = 0x00 :: [0x60]) ∧
    ((withCode [0x00, 0x60] .debug .fault 0).runState = .running ∧ (withCode [0x00, 0x60] .debug .fault 0).mode = .debug ∧
      (withCode [0x00, 0x60] .debug .fault 0).code.drop (withCode [0x00, 0x60] .debug .fault 0).pc = 0x00 :: [0x60]) :=
  ⟨⟨withinStackLimit_of_none rfl, by decide⟩, by decide⟩

theorem witness_UnknownIsReportedNoOp : (withStack []).withinStackLimit ∧ (Instr.unknown 0xff).wf = true ∧
    (withCode [0xff] .debug .fault 0).runState = .running ∧ (withCode [0xff] .debug .fault 0).mode = .debug ∧
    (withCode [0xff] .debug .fault 0).code.drop (withCode [0xff] .debug .fault 0).pc = 0xff :: [] :=
  ⟨withinStackLimit_of_none rfl, by decide⟩

theorem witness_StackUnderflowExactlyOnTooFewOperands : (withStack [0x1]).depth < 2 ∧ (withStack []).depth < 1 ∧
    ∃ t, (withStack [0x1]).runState = .running ∧ exec .mstore (withStack [0x1]) = .next t ∧ t.runState = .faulted ∧
      t.faultCause = 1 :=
  ⟨by decide, by decide, _, rfl, rfl, by decide, by decide⟩

/-- The left side of the equivalence holds somewhere, and the right side at no byte and at one byte too few. -/
theorem witness_OutOfBoundsImmediateExactlyOnTruncatedPush :
    (∃ t, (withCode [0x60] .run .fault 0).runState = .running ∧ step (withCode [0x60] .run .fault 0) = .next t ∧
      t.runState = .faulted ∧ t.faultCause = 2) ∧
    (withCode [0x61, 0xff] .debug .fault 0).code.drop (withCode [0x61, 0xff] .debug .fault 0).pc = 0x61 :: [0xff] ∧
    ([0xff] : List Byte).length < 2 :=
  ⟨⟨_, rfl, rfl, by decide, by decide⟩, by decide, by decide⟩

/-- The limit one below each required size; the converse clause at one of them. -/
theorem witness_MemoryLimitExactlyOnTooLargeAccess :
    (withLimits none (some 31) [0x0, 0x1]).withinStackLimit ∧
    (withLimits none (some 31) [0x0, 0x1]).params.memLimit = some 31 ∧
    (withLimits none (some 31) [0x0, 0x1]).stack.head? = some 0x0 ∧ 2 ≤ (withLimits none (some 31) [0x0, 0x1]).depth ∧
    31 < (0x0 : Word).toNat + 32 ∧
    ((withLimits none (some 31) [0x1f, 0x1]).stack.head? = some 0x1f ∧ 31 < (0x1f : Word).toNat + 1) ∧
    ∃ t, (withLimits none (some 31) [0x0]).runState = .running ∧ exec .mload (withLimits none (some 31) [0x0]) = .next t ∧
      t.runState = .faulted ∧ t.faultCause = 3 :=
  ⟨withinStackLimit_of_none rfl, rfl, rfl, by decide, by decide, ⟨rfl, by decide⟩, _, rfl, rfl, by decide, by decide⟩

/-- A push at the limit (0 among them); a popping kind in a state already deeper than the limit. -/
theorem witness_StackOverflowOnlyByPushesAtTheLimit :
    (Instr.push1 0x01).kind ∈ [Kind.push1, .push2, .push32, .add, .mul, .mload] ∧
    (withLimits (some 0) none []).params.stackLimit = some 0 ∧ pops (.push1 0x01) ≤ (withLimits (some 0) none []).depth ∧
    0 < (withLimits (some 0) none []).depth - pops (.push1 0x01) + pushes (.push1 0x01) ∧
    (pops .add ≤ (withLimits (some 0) none [0x1, 0x1]).depth ∧
      0 < (withLimits (some 0) none [0x1, 0x1]).depth - pops .add + pushes .add) ∧
    (withLimits (some 0) none []).withinStackLimit ∧
    ∃ t, exec (.push1 0x01) (withLimits (some 0) none []) = .next t ∧ t.runState = .faulted ∧ t.faultCause = 4 :=
  ⟨by decide, rfl, by decide, by decide, by decide, withinStackLimit_of_some (k := 0) rfl (by decide), _, rfl, by decide,
    by decide⟩

/-- Each clause: a truncated push that would overflow too (FLT-4); underflow before the memory limit (FLT-6); overflow; the
memory limit alone. -/
theorem witness_FaultPriorityOrder :
    ((withCode [0x60] .run .fault 0).runState = .running ∧
      (withCode [0x60] .run .fault 0).pc < (withCode [0x60] .run .fault 0).codeLen ∧
      (withCode [0x60] .run .fault 0).fetch = .outOfBounds 0x60) ∧
    (∃ t, exec .mstore (withLimits none (some 1024) [maxWord]) = .next t ∧ t.runState = .faulted ∧
      (withLimits none (some 1024) [maxWord]).depth < pops .mstore) ∧
    (∃ t, exec (.push1 0x01) (withLimits (some 0) none []) = .next t ∧ t.runState = .faulted ∧
      (Instr.push1 0x01).kind ∈ [Kind.push1, .push2, .push32, .add, .mul, .mload] ∧
      pops (.push1 0x01) ≤ (withLimits (some 0) none []).depth ∧
      ∃ n, (withLimits (some 0) none []).params.stackLimit = some n ∧
        n < (withLimits (some 0) none []).depth - pops (.push1 0x01) + pushes (.push1 0x01)) ∧
    (∃ t, exec .mload (withLimits (some 1) (some 31) [0x0]) = .next t ∧ t.runState = .faulted ∧
      pops .mload ≤ (withLimits (some 1) (some 31) [0x0]).depth ∧
      (withLimits (some 1) (some 31) [0x0]).params.stackLimit = some 1 ∧
      (withLimits (some 1) (some 31) [0x0]).depth - pops .mload + pushes .mload ≤ 1) ∧
    1 < pops .mstore :=
  ⟨by decide, ⟨_, rfl, by decide, by decide⟩, ⟨_, rfl, by decide, by decide, by decide, 0, rfl, by decide⟩,
    ⟨_, rfl, by decide, by decide, rfl, by decide⟩, by decide⟩

/-- Program 7, its faulting step. -/
theorem witness_FaultEntryIsPrecise :
    ∃ t, step { withCode [0x60, 0x07, 0x52, 0x60, 0x01] .run .fault 2 with stack := [0x7] } = .next t ∧
      t.runState = .faulted :=
  ⟨_, rfl, by decide⟩

theorem witness_FaultCauseCodes : (∃ t, step (withCode [0x01] .run .fault 0) = .next t) ∧
    ∃ t, step (withCode [0x00] .run .fault 0) = .next t :=
  ⟨⟨_, rfl⟩, ⟨_, rfl⟩⟩

theorem witness_FrameOfNonMemoryInstructions :
    (∃ t, Instr.add ≠ .mload ∧ Instr.add ≠ .mstore ∧ Instr.add ≠ .mstore8 ∧ (withStack [0x1, 0x2]).runState = .running ∧
      exec .add (withStack [0x1, 0x2]) = .next t ∧ t.runState ≠ .faulted) ∧
    ∃ t, exec (.unknown 0xff) (withStack []) = .next t ∧ t.runState ≠ .faulted :=
  ⟨⟨_, by decide, by decide, by decide, rfl, rfl, by decide⟩, ⟨_, rfl, by decide⟩⟩

/-- A store of a word, whose frame's addresses are those just below and just above it; and a load. -/
theorem witness_FrameOfMemoryInstructions :
    (∃ t, (withStack [0x1, 0x2a]).runState = .running ∧ exec .mstore (withStack [0x1, 0x2a]) = .next t ∧
      t.runState ≠ .faulted ∧ (withStack [0x1, 0x2a]).peek? = some 0x1 ∧ 0 < (0x1 : Word).toNat ∧
      (0x1 : Word).toNat + 32 ≤ 33) ∧
    (∃ t, exec .mstore8 (withStack [0x1, 0x2a]) = .next t ∧ t.runState ≠ .faulted ∧ 0 ≠ (0x1 : Word).toNat) ∧
    ∃ t, exec .mload (withStack [0x1]) = .next t ∧ t.runState ≠ .faulted :=
  ⟨⟨_, rfl, rfl, by decide +kernel, rfl, by decide, by decide⟩, ⟨_, rfl, by decide +kernel, by decide⟩,
    ⟨_, rfl, by decide +kernel⟩⟩

theorem witness_StepNeverGoesBack : ∃ t, step (withCode [0xff] .run .fault 0) = .next t := ⟨_, rfl⟩

/-- In both modes, at the widest instruction that ZeroPad yields. -/
theorem witness_PcAdvancesByExactlyTheWidth :
    (∃ i t, (withCode [0x7f] .run .zeroPad 0).fetch = .op i 33 ∧ step (withCode [0x7f] .run .zeroPad 0) = .next t ∧
      t.runState ≠ .faulted) ∧
    ∃ i t, (withCode [0x7f] .debug .zeroPad 0).fetch = .op i 33 ∧ step (withCode [0x7f] .debug .zeroPad 0) = .next t ∧
      t.runState ≠ .faulted :=
  ⟨⟨_, _, rfl, rfl, by decide +kernel⟩, ⟨_, _, rfl, rfl, by decide +kernel⟩⟩

/-- A state that is no reset state: pc in the padded range, a full stack, memory at its limit. -/
theorem witness_StepKeepsInvariant :
    ∃ t, ({ State.resetWith [0x61, 0xff] .run ⟨.zeroPad, some 1, some 32⟩ with
        pc := 3, stack := [0xff00], mem := ⟨32, [(31, 0x2a)]⟩ } : State).Inv ∧
      step { State.resetWith [0x61, 0xff] .run ⟨.zeroPad, some 1, some 32⟩ with
        pc := 3, stack := [0xff00], mem := ⟨32, [(31, 0x2a)]⟩ } = .next t :=
  ⟨_, ⟨by decide, withinStackLimit_of_some (k := 1) rfl (by decide), fitsMemLimit_of_some (k := 32) rfl (by decide),
    by simp [State.pcInRange, State.resetWith], by simp [State.faultRecordInv, State.resetWith],
    by simp [State.debugUntouched, State.resetWith]⟩, rfl⟩

/-- One record in EVENTS, in each mode; and a halted walk. -/
theorem witness_StepKeepsEventsInvariant :
    (∃ t, ({ withCode [0xff, 0xfe] .run .fault 1 with events := [⟨.unknown, some 0, some 0xff, 0⟩] } : State).eventsInv ∧
      step { withCode [0xff, 0xfe] .run .fault 1 with events := [⟨.unknown, some 0, some 0xff, 0⟩] } = .next t) ∧
    ∃ t, ({ withCode [0x01, 0x00] .debug .fault 1 with events := [⟨.add, some 0, some 0x01, 0⟩] } : State).eventsInv ∧
      step { withCode [0x01, 0x00] .debug .fault 1 with events := [⟨.add, some 0, some 0x01, 0⟩] } = .next t :=
  ⟨⟨_, by simp [State.eventsInv, recordsBelow, withCode, State.resetWith], rfl⟩,
    ⟨_, by simp [State.eventsInv, recordsBelow, withCode, State.resetWith], rfl⟩⟩

theorem witness_EveryRunEndsWithinCodeLenPlusOneSteps :
    (∃ t, (withCode [0xff] .run .fault 0).mode = .run ∧ step (withCode [0xff] .run .fault 0) = .next t ∧
      t.runState = .running) ∧
    (withCode [0xff] .run .fault 1).runState = .running ∧ (withCode [0xff] .run .fault 1).mode = .run ∧
    (withCode [0xff] .run .fault 1).codeLen ≤ (withCode [0xff] .run .fault 1).pc :=
  ⟨⟨_, rfl, rfl, rfl⟩, by decide⟩

theorem witness_DebugRunIsTheWalk : ∀ policy ∈ [OobImmPolicy.fault, .endRun, .zeroPad],
    (withCode [0x00, 0x60] .debug policy 0).runState = .running ∧ (withCode [0x00, 0x60] .debug policy 0).mode = .debug ∧
      ((withCode [0x00, 0x60] .debug policy 0).params.oobImmPolicy ≠ .fault ↔ policy ≠ .fault) := by decide

theorem witness_FetchWordIsRunByTheNextStep : decodeTableWord 16 0xff60 = some (.push1 0xff) ∧
    decodeTableWord 8 0x80 = some (.unknown 0x80) := by decide +kernel

theorem witness_ReadoutListsStackTopToBottom :
    { withStack [0x3, 0x1] with runState := .halted }.runState = .halted ∧
      { withStack [0x3, 0x1] with runState := .halted }.mode = .run ∧
      { withStack [0x3, 0x1] with runState := .halted }.stack[1]? = some 0x1 := by decide

/-- A text that decodes, the empty one, an odd length, and a bad pair. -/
theorem witness_HexDecodeAcceptsExactlyDigitPairs : hexDecode ['f', 'F'] = .ok [0xff] ∧ hexDecode [] = .ok [] ∧
    hexDecode ['0'] = .error (.oddLength 1) ∧ hexDecode ['0', 'g'] = .error (.badPair 0) := ⟨rfl, rfl, rfl, rfl⟩

/-- A push at the limit; and STOP and MSTORE in states deeper than it. -/
theorem witness_OverflowCheckIsMadeForEveryKind :
    ((withLimits (some 0) none []).params.stackLimit = some 0 ∧ (withLimits (some 0) none []).withinStackLimit ∧
      pops (.push1 0x01) ≤ (withLimits (some 0) none []).depth ∧
      0 < (withLimits (some 0) none []).depth - pops (.push1 0x01) + pushes (.push1 0x01)) ∧
    ((withLimits (some 0) none [0x1]).params.stackLimit = some 0 ∧ pops .stop ≤ (withLimits (some 0) none [0x1]).depth ∧
      0 < (withLimits (some 0) none [0x1]).depth - pops .stop + pushes .stop) ∧
    ((withLimits (some 0) none [0x1, 0x2, 0x3]).params.stackLimit = some 0 ∧
      pops .mstore ≤ (withLimits (some 0) none [0x1, 0x2, 0x3]).depth ∧
      0 < (withLimits (some 0) none [0x1, 0x2, 0x3]).depth - pops .mstore + pushes .mstore) :=
  ⟨⟨rfl, withinStackLimit_of_some (k := 0) rfl (by decide), by decide, by decide⟩, by decide, by decide⟩

end Sys2Proof.Tests
end

section
/-!
PROOFS. Big-endian conversion (00_scope.md R15): `be_to_word` as the weighted sum of its bytes, and the word's 32 bytes
as the unique sequence that gives it back.
-/
namespace Sys2Proof

/-- The Horner form of R15's weighted sum. -/
theorem beToNat_eq_sum (bs : List Byte) :
    beToNat bs = ∑ i : Fin bs.length, (bs[i]).toNat * 256 ^ (bs.length - 1 - i.val) := by
  induction bs with
  | nil => simp
  | cons b bs ih =>
    have hexp (i : Fin bs.length) : bs.length - (i.val + 1) = bs.length - 1 - i.val := by omega
    rw [beToNat_cons, ih]
    simp [Fin.sum_univ_succ, hexp]

theorem wordToBe32_getElem? (v : Word) (k : Nat) (hk : k < 32) : (wordToBe32 v)[k]? = some (wordByte v k) := by
  rw [List.getElem?_eq_getElem (by simpa using hk), wordToBe32_getElem]

theorem eq_wordToBe32_of_beToWord_eq {bs : List Byte} {v : Word} (hlen : bs.length = 32) (hv : beToWord bs = v) :
    bs = wordToBe32 v := by
  rw [← hv, wordToBe32_beToWord bs hlen]

/-- Settles O1: the sum by induction on the bytes, the inverse and its uniqueness from the two round trips. -/
theorem bigEndianConversionsAreInverse : Obligations.BigEndianConversionsAreInverse := by
  refine ⟨fun bs hlen => ?_, fun v => ⟨wordToBe32_length v, ?_, beToWord_wordToBe32 v, ?_⟩⟩
  · rw [beToWord_toNat bs hlen, beToNat_eq_sum]
  · exact wordToBe32_getElem? v
  · exact fun bs => eq_wordToBe32_of_beToWord_eq

end Sys2Proof
end

section
/-!
PROOFS. The canonical form of memory (log 8): a canonical memory is fixed by its MSIZE and by what its bytes read as.
-/
namespace Sys2Proof.Machine

theorem cellsGet_of_mem {cs : List Host.Cell} {c : Host.Cell} (h : cs.Pairwise (fun c d => c.1 < d.1)) (hc : c ∈ cs) :
    cellsGet cs c.1 = c.2 := by
  induction cs with
  | nil => cases hc
  | cons d cs ih =>
    obtain ⟨hd, hcs⟩ := List.pairwise_cons.1 h
    rw [cellsGet]
    rcases List.mem_cons.1 hc with rfl | hc
    · exact if_pos rfl
    · rw [if_neg (Nat.ne_of_lt (hd c hc)), ih hcs hc]

theorem mem_of_cellsGet_ne {cs : List Host.Cell} {a : Nat} (h : cellsGet cs a ≠ unlistedByte) :
    (a, cellsGet cs a) ∈ cs := by
  induction cs with
  | nil => exact absurd rfl h
  | cons c cs ih =>
    rw [cellsGet] at h ⊢
    split at h
    · next hc => subst hc; simp
    · next hc => simp only [hc, if_false]; exact List.mem_cons_of_mem c (ih h)

/-- The listed cells are exactly the bytes that do not read as an unlisted one. -/
theorem mem_cells_iff {m : Memory} (h : m.wf) (c : Host.Cell) :
    c ∈ m.cells ↔ m.byte? c.1 = some c.2 ∧ c.2 ≠ unlistedByte := by
  obtain ⟨hrising, hlisted⟩ := h
  constructor
  · intro hc
    obtain ⟨hsize, hne⟩ := hlisted c hc
    exact ⟨by rw [Memory.byte?, if_pos hsize, cellsGet_of_mem hrising hc], hne⟩
  · rintro ⟨hread, hne⟩
    rw [Memory.byte?] at hread
    split at hread
    · have hget : cellsGet m.cells c.1 = c.2 := Option.some.inj hread
      simpa [hget] using mem_of_cellsGet_ne (hget ▸ hne : cellsGet m.cells c.1 ≠ unlistedByte)
    · cases hread

/-- Settles O31: both lists of cells have the same members, and a strictly rising list is fixed by its members. -/
theorem canonicalMemoriesReadAlikeAreEqual : Obligations.CanonicalMemoriesReadAlikeAreEqual := by
  intro m n hm hn hsize hread
  have hmem (c : Host.Cell) : c ∈ m.cells ↔ c ∈ n.cells := by
    rw [mem_cells_iff hm, mem_cells_iff hn, hread]
  have : Std.Antisymm (fun c d : Host.Cell => c.1 < d.1) := ⟨fun _ _ h h' => absurd h' (Nat.lt_asymm h)⟩
  have : Std.Irrefl (fun c d : Host.Cell => c.1 < d.1) := ⟨fun c => Nat.lt_irrefl c.1⟩
  have hcells : m.cells = n.cells := hm.1.eq_of_mem_iff hn.1 hmem
  obtain ⟨size, cells⟩ := m
  obtain ⟨size', cells'⟩ := n
  exact congrArg₂ Memory.mk hsize hcells

end Sys2Proof.Machine
end

section
/-!
PROOFS. What an effect, a meaning and a step can do, as one equation for the next state each: from these the statements
about every step follow without a look at the single instructions.
-/
namespace Sys2Proof.Machine

/-! ### The state a completing instruction leaves -/

/-- The records a completing instruction found at `addr` appends to EVENTS: UNKNOWN's own (40_control.md R86). -/
def reportOf (addr : Nat) : Instr → List Event
  | .unknown tag => [((Instr.unknown tag).record addr).event]
  | _ => []

/-- The prepared state `p` with the stack and memory the effect of `i`, found at `addr`, leaves: only STOP halts, and
only UNKNOWN reports. -/
def State.finish (p : State) (addr : Nat) (i : Instr) (stack : List Word) (mem : Memory) : State :=
  { p with
    stack := stack
    mem := mem
    runState := if i = .stop then .halted else p.runState
    events := p.events ++ reportOf addr i }

section
variable (p : State) (addr : Nat) (i : Instr) (l : List Word) (m : Memory)

@[simp] theorem State.finish_code : (p.finish addr i l m).code = p.code := rfl
@[simp] theorem State.finish_pc : (p.finish addr i l m).pc = p.pc := rfl
@[simp] theorem State.finish_stack : (p.finish addr i l m).stack = l := rfl
@[simp] theorem State.finish_mem : (p.finish addr i l m).mem = m := rfl
@[simp] theorem State.finish_runState :
    (p.finish addr i l m).runState = if i = .stop then .halted else p.runState := rfl
@[simp] theorem State.finish_mode : (p.finish addr i l m).mode = p.mode := rfl
@[simp] theorem State.finish_events : (p.finish addr i l m).events = p.events ++ reportOf addr i := rfl
@[simp] theorem State.finish_faultCause : (p.finish addr i l m).faultCause = p.faultCause := rfl
@[simp] theorem State.finish_faultPc : (p.finish addr i l m).faultPc = p.faultPc := rfl
@[simp] theorem State.finish_faultOpcode : (p.finish addr i l m).faultOpcode = p.faultOpcode := rfl
@[simp] theorem State.finish_params : (p.finish addr i l m).params = p.params := rfl

end

theorem reportOf_length_le (addr : Nat) (i : Instr) : (reportOf addr i).length ≤ 1 := by
  cases i <;> simp [reportOf]

theorem reportOf_cases (addr : Nat) (i : Instr) :
    reportOf addr i = [] ∨ ∃ e, reportOf addr i = [e] ∧ e.addr = some addr ∧ e.kind = .unknown := by
  cases i with
  | unknown tag => exact .inr ⟨_, rfl, rfl, rfl⟩
  | _ => exact .inl rfl

theorem finish_not_faulted {p : State} {addr : Nat} {i : Instr} {l : List Word} {m : Memory}
    (h : p.runState = .running) : (p.finish addr i l m).runState ≠ .faulted := by
  rw [State.finish_runState, h]
  split <;> decide

/-! ### The effects, inverted -/

theorem pop_ok {s u : State} {v : Word} (h : s.pop = .ok (v, u)) :
    ∃ rest, s.stack = v :: rest ∧ u = s.setStack rest := by
  unfold State.pop at h
  split at h
  · cases h
  · next rest hs => cases h; exact ⟨rest, hs, rfl⟩

theorem pop_pop_ok {s u w : State} {a b : Word} (h : s.pop = .ok (a, u)) (h' : u.pop = .ok (b, w)) :
    ∃ rest, s.stack = a :: b :: rest ∧ w = s.setStack rest := by
  obtain ⟨rest', hs, rfl⟩ := pop_ok h
  obtain ⟨rest, hs', rfl⟩ := pop_ok h'
  rw [State.setStack_stack] at hs'
  exact ⟨rest, by rw [hs, hs'], rfl⟩

theorem writeWord?_size {m m' : Memory} {a : Nat} {v : Word} (h : m.writeWord? a v = some m') : m'.size = m.size := by
  rw [Memory.writeWord?] at h
  split at h
  · cases h; exact setBytes_size m a _
  · cases h

theorem writeByte?_size {m m' : Memory} {a : Nat} {b : Byte} (h : m.writeByte? a b = some m') : m'.size = m.size := by
  rw [Memory.writeByte?] at h
  split at h
  · cases h; exact setBytes_size m a _
  · cases h

theorem memWriteWord_ok {s t : State} {a : Nat} {v : Word} (h : s.memWriteWord a v = .ok t) :
    ∃ m, t = s.setMem m ∧ m.size = s.mem.size ∧ (s.mem.wf → m.wf) := by
  unfold State.memWriteWord at h
  split at h
  · next m hw =>
    cases h
    exact ⟨m, rfl, writeWord?_size hw, fun hwf => writeWord?_wf _ _ _ _ hwf hw⟩
  · cases h

theorem memWriteByte_ok {s t : State} {a : Nat} {b : Byte} (h : s.memWriteByte a b = .ok t) :
    ∃ m, t = s.setMem m ∧ m.size = s.mem.size ∧ (s.mem.wf → m.wf) := by
  unfold State.memWriteByte at h
  split at h
  · next m hw =>
    cases h
    exact ⟨m, rfl, writeByte?_size hw, fun hwf => writeByte?_wf _ _ _ _ hwf hw⟩
  · cases h

theorem pushEffect_ok {imm : Word} {p t : State} (h : pushEffect imm p = .ok t) : t = p.push imm :=
  (Except.ok.inj h).symm

theorem aluEffect_ok {f : Word → Word → Word} {p t : State} (h : aluEffect f p = .ok t) :
    ∃ a b rest, p.stack = a :: b :: rest ∧ t = p.setStack (f a b :: rest) := by
  unfold aluEffect at h
  split at h
  · cases h
  · next a p1 h1 =>
    split at h
    · cases h
    · next b p2 h2 =>
      obtain ⟨rest, hs, rfl⟩ := pop_pop_ok h1 h2
      cases h
      exact ⟨a, b, rest, hs, rfl⟩

theorem mloadEffect_ok {p t : State} (h : mloadEffect p = .ok t) :
    ∃ offset v rest, p.stack = offset :: rest ∧ t = p.setStack (v :: rest) := by
  unfold mloadEffect at h
  split at h
  · cases h
  · next offset p1 h1 =>
    obtain ⟨rest, hs, rfl⟩ := pop_ok h1
    split at h
    · cases h
    · next v _ => cases h; exact ⟨offset, v, rest, hs, rfl⟩

theorem mstoreEffect_ok {p t : State} (h : mstoreEffect p = .ok t) :
    ∃ offset value rest m, p.stack = offset :: value :: rest ∧ t = (p.setStack rest).setMem m ∧
      m.size = p.mem.size ∧ (p.mem.wf → m.wf) := by
  unfold mstoreEffect at h
  split at h
  · cases h
  · next offset p1 h1 =>
    split at h
    · cases h
    · next value p2 h2 =>
      obtain ⟨rest, hs, rfl⟩ := pop_pop_ok h1 h2
      obtain ⟨m, ht, hsize, hwf⟩ := memWriteWord_ok h
      exact ⟨offset, value, rest, m, hs, ht, hsize, hwf⟩

theorem mstore8Effect_ok {p t : State} (h : mstore8Effect p = .ok t) :
    ∃ offset value rest m, p.stack = offset :: value :: rest ∧ t = (p.setStack rest).setMem m ∧
      m.size = p.mem.size ∧ (p.mem.wf → m.wf) := by
  unfold mstore8Effect at h
  split at h
  · cases h
  · next offset p1 h1 =>
    split at h
    · cases h
    · next value p2 h2 =>
      obtain ⟨rest, hs, rfl⟩ := pop_pop_ok h1 h2
      obtain ⟨m, ht, hsize, hwf⟩ := memWriteByte_ok h
      exact ⟨offset, value, rest, m, hs, ht, hsize, hwf⟩

/-- Everything an effect can do when it completes: it pops and pushes the words R81 counts, writes bytes below MSIZE
only, and otherwise does what `State.finish` says. -/
theorem effectOf_ok {addr : Nat} {i : Instr} {p t : State} (h : effectOf addr i p = .ok t) :
    ∃ l m, l.length + pops i = p.depth + pushes i ∧ m.size = p.mem.size ∧ (p.mem.wf → m.wf) ∧
      t = p.finish addr i l m := by
  cases i with
  | stop => cases h; exact ⟨p.stack, p.mem, rfl, rfl, id, by simp [State.finish, State.halt, reportOf]⟩
  | unknown tag => cases h; exact ⟨p.stack, p.mem, rfl, rfl, id, by simp [State.finish, State.emit, reportOf]⟩
  | push1 v | push2 v | push32 v =>
    have ht := pushEffect_ok h
    exact ⟨t.stack, p.mem, by simp [ht, pops, pushes], rfl, id,
      by simp [ht, State.finish, State.push, State.setStack, reportOf]⟩
  | add | mul =>
    obtain ⟨a, b, rest, hs, ht⟩ := aluEffect_ok h
    exact ⟨t.stack, p.mem, by simp [ht, State.depth, hs, pops, pushes], rfl, id,
      by simp [ht, State.finish, State.setStack, reportOf]⟩
  | mload =>
    obtain ⟨offset, v, rest, hs, ht⟩ := mloadEffect_ok h
    exact ⟨t.stack, p.mem, by simp [ht, State.depth, hs, pops, pushes], rfl, id,
      by simp [ht, State.finish, State.setStack, reportOf]⟩
  | mstore =>
    obtain ⟨offset, value, rest, m, hs, ht, hsize, hwf⟩ := mstoreEffect_ok h
    exact ⟨rest, m, by simp [State.depth, hs, pops, pushes], hsize, hwf,
      by simp [ht, State.finish, State.setStack, State.setMem, reportOf]⟩
  | mstore8 =>
    obtain ⟨offset, value, rest, m, hs, ht, hsize, hwf⟩ := mstore8Effect_ok h
    exact ⟨rest, m, by simp [State.depth, hs, pops, pushes], hsize, hwf,
      by simp [ht, State.finish, State.setStack, State.setMem, reportOf]⟩

/-! ### The meanings and the step, inverted -/

/-- What a completing instruction may make of the memory of `s`: MSIZE does not fall, and the canonical form and
MEM_LIMIT are kept (20_memory.md R50, R51). -/
structure State.MayGrowTo (s : State) (m : Memory) : Prop where
  size : s.mem.size ≤ m.size
  wf : s.mem.wf → m.wf
  limit : s.fitsMemLimit s.mem.size → s.fitsMemLimit m.size

theorem prepare_mayGrow {i : Instr} {s p : State} (h : prepare i s = .ok p) :
    ∃ m, s.MayGrowTo m ∧ p = (s.setMem m).setPc (s.pc + i.width) := by
  obtain ⟨-, ⟨-, rfl⟩ | ⟨r, -, hfits, rfl⟩⟩ := prepare_ok h
  · exact ⟨s.mem, ⟨Nat.le_refl _, id, id⟩, rfl⟩
  · have hsize := grow_size s.mem r
    refine ⟨s.mem.grow r, ⟨by omega, grow_wf s.mem r, fun hold l hl => ?_⟩, rfl⟩
    have := hold l hl
    have := hfits l hl
    omega

/-- Everything a meaning can do: the fault entry on the state it started from, or it completes, within both limits. -/
theorem exec_next {i : Instr} {s t : State} (h : exec i s = .next t) :
    (∃ c, t = s.raise c s.pc i.opcode) ∨
      ∃ l m, (s.setStack l).withinStackLimit ∧ s.MayGrowTo m ∧
        t = (s.setPc (s.pc + i.width)).finish s.pc i l m := by
  rw [exec_eq_execute] at h
  rcases execute_next h with ⟨p, hp, he⟩ | ⟨c, ht, -⟩
  · obtain ⟨hpops, hlimit⟩ := checkOperands_eq_none.1 (prepare_ok hp).1
    obtain ⟨m₀, hgrow, rfl⟩ := prepare_mayGrow hp
    obtain ⟨l, m, hdepth, hsize, hwf, rfl⟩ := effectOf_ok he
    simp only [State.depth, State.setPc_stack, State.setMem_stack, State.setPc_mem, State.setMem_mem]
      at hdepth hsize hwf hpops hlimit
    refine .inr ⟨l, m, fun n hn => ?_, ⟨hsize ▸ hgrow.size, hwf ∘ hgrow.wf, hsize ▸ hgrow.limit⟩, rfl⟩
    have := hlimit n hn
    simp only [State.depth, State.setStack_stack]
    omega
  · exact .inl ⟨c, ht⟩

/-- The next states a step from the Running state `s` can answer. -/
inductive StepResult (s : State) : State → Prop
  /-- Run mode at END. -/
  | halts (mode : s.mode = .run) : StepResult s s.halt
  /-- The fault entry, in either mode. -/
  | raises (c : Cause) (tag : Byte) : StepResult s (s.raise c s.pc tag)
  /-- Run mode: the instruction at pc completes. -/
  | completes (i : Instr) (l : List Word) (m : Memory) (mode : s.mode = .run)
      (fetch : s.fetch = .op i (s.pc + i.width)) (stack : (s.setStack l).withinStackLimit) (mem : s.MayGrowTo m) :
      StepResult s ((s.setPc (s.pc + i.width)).finish s.pc i l m)
  /-- Debug mode at END. -/
  | walkEnds (mode : s.mode = .debug) : StepResult s (s.emit OpRecord.endOfCode).halt
  /-- Debug mode walks over the instruction at pc. -/
  | walks (i : Instr) (mode : s.mode = .debug) (fetch : s.fetch = .op i (s.pc + i.width)) :
      StepResult s ((s.emit (i.record s.pc)).setPc (s.pc + i.width))

theorem step_result {s t : State} (h : step s = .next t) : s.runState = .running ∧ StepResult s t := by
  obtain ⟨hrun, hcases⟩ := step_next h
  refine ⟨hrun, ?_⟩
  rcases hcases with ⟨hm, -, rfl⟩ | ⟨hm, -, -, rfl⟩ | ⟨tag, -, -, rfl⟩ |
    ⟨i, hm, -, hf, he⟩ | ⟨hm, -, rfl⟩ | ⟨i, hm, hf, rfl⟩
  · exact .halts hm
  · exact .halts hm
  · exact .raises _ tag
  · rcases exec_next he with ⟨c, rfl⟩ | ⟨l, m, hl, hgrow, rfl⟩
    · exact .raises c i.opcode
    · exact .completes i l m hm hf hl hgrow
  · exact .walkEnds hm
  · exact .walks i hm hf

/-- Settles O46: read off every next state a step can answer. -/
theorem stepNeverGoesBack : Obligations.StepNeverGoesBack := by
  intro s t h
  obtain ⟨-, hres⟩ := step_result h
  cases hres with
  | halts | raises => exact ⟨rfl, rfl, rfl, Nat.le_refl _, Nat.le_refl _, [], by simp⟩
  | completes i l m _ _ _ mem =>
    exact ⟨rfl, rfl, rfl, Nat.le_add_right _ _, mem.size, reportOf s.pc i, rfl, reportOf_length_le s.pc i⟩
  | walkEnds => exact ⟨rfl, rfl, rfl, Nat.le_refl _, Nat.le_refl _, [_], rfl, Nat.le_refl _⟩
  | walks => exact ⟨rfl, rfl, rfl, Nat.le_add_right _ _, Nat.le_refl _, [_], rfl, Nat.le_refl _⟩

end Sys2Proof.Machine
end

section
/-!
PROOFS. The machine's invariant `State.Inv`: reset establishes it and every step keeps it.
-/
namespace Sys2Proof.Machine

theorem faultRecordInv_of_not_faulted (s : State) (h : s.runState ≠ .faulted) :
    s.faultRecordInv ↔ s.faultCause = 0 ∧ s.faultPc = 0 ∧ s.faultOpcode = 0 := by
  rw [State.faultRecordInv, if_neg h]

/-- A running state's fault record is still clear. -/
theorem State.Inv.clearRecord {s : State} (h : s.Inv) (hrun : s.runState = .running) :
    s.faultCause = 0 ∧ s.faultPc = 0 ∧ s.faultOpcode = 0 :=
  (faultRecordInv_of_not_faulted s (by simp [hrun])).1 h.faultRecord

theorem cause_code_bounds (c : Cause) : 1 ≤ c.code.toNat ∧ c.code.toNat ≤ 4 := by
  cases c <;> decide

theorem faultRecordInv_raise (s : State) (c : Cause) (tag : Byte) : (s.raise c s.pc tag).faultRecordInv := by
  rw [State.faultRecordInv, if_pos (State.raise_runState ..)]
  obtain ⟨hlow, hhigh⟩ := cause_code_bounds c
  exact ⟨hlow, hhigh, rfl⟩

/-- Where fetch-decode leads pc (10_state.md R20): a push padded under ZeroPad may end beyond the code. -/
theorem pcInRange_of_fetch {s : State} {i : Instr} {n : Nat} (h : s.fetch = .op i n) : (s.setPc n).pcInRange := by
  obtain ⟨-, -, -, hn | ⟨hpolicy, hn⟩⟩ := fetchDecode_op h
  · exact Nat.le_add_right_of_le hn
  · simpa [State.pcInRange, State.codeLen, hpolicy] using hn

theorem State.Inv.halt {s : State} (h : s.Inv) (hrun : s.runState = .running) : s.halt.Inv where
  memWf := h.memWf
  stack := h.stack
  memory := h.memory
  pc := h.pc
  faultRecord := (faultRecordInv_of_not_faulted s.halt (by simp)).2 (h.clearRecord hrun)
  debug := h.debug

theorem State.Inv.raise {s : State} (h : s.Inv) (c : Cause) (tag : Byte) : (s.raise c s.pc tag).Inv where
  memWf := h.memWf
  stack := h.stack
  memory := h.memory
  pc := h.pc
  faultRecord := faultRecordInv_raise s c tag
  debug := h.debug

/-- EVENTS is no part of the invariant. -/
theorem State.Inv.emit {s : State} (h : s.Inv) (r : OpRecord) : (s.emit r).Inv where
  memWf := h.memWf
  stack := h.stack
  memory := h.memory
  pc := h.pc
  faultRecord := h.faultRecord
  debug := h.debug

theorem State.Inv.setPc {s : State} {n : Nat} (h : s.Inv) (hrun : s.runState = .running) (hn : (s.setPc n).pcInRange) :
    (s.setPc n).Inv where
  memWf := h.memWf
  stack := h.stack
  memory := h.memory
  pc := hn
  faultRecord := (faultRecordInv_of_not_faulted (s.setPc n) (by simp [hrun])).2 (h.clearRecord hrun)
  debug := h.debug

theorem State.Inv.finish {s : State} {addr : Nat} {i : Instr} {l : List Word} {m : Memory} (h : s.Inv)
    (hrun : s.runState = .running) (hmode : s.mode = .run) (hl : (s.setStack l).withinStackLimit)
    (hm : s.MayGrowTo m) : (s.finish addr i l m).Inv where
  memWf := hm.wf h.memWf
  stack := hl
  memory := hm.limit h.memory
  pc := h.pc
  faultRecord := (faultRecordInv_of_not_faulted (s.finish addr i l m) (finish_not_faulted hrun)).2
    (h.clearRecord hrun)
  debug hdebug := absurd (hmode.symm.trans hdebug) (by decide)

/-- Settles O50: each next state a step can answer is built by updates that keep the invariant, and fetch-decode keeps
pc in its range. -/
theorem stepKeepsInvariant : Obligations.StepKeepsInvariant := by
  intro s t hinv h
  obtain ⟨hrun, hres⟩ := step_result h
  cases hres with
  | halts => exact hinv.halt hrun
  | raises c tag => exact hinv.raise c tag
  | completes i l m mode fetch stack mem =>
    exact (hinv.setPc hrun (pcInRange_of_fetch fetch)).finish hrun mode stack ⟨mem.size, mem.wf, mem.limit⟩
  | walkEnds => exact (hinv.emit _).halt hrun
  | walks i _ fetch => exact (hinv.emit _).setPc hrun (pcInRange_of_fetch fetch)

/-- Settles O49: everything starts at zero or empty, which lies within every limit. -/
theorem invariantHoldsAfterReset : Obligations.InvariantHoldsAfterReset := fun bytes mode params =>
  { memWf := empty_wf
    stack := fun _ _ => Nat.zero_le _
    memory := fun _ _ => Nat.zero_le _
    pc := Nat.zero_le _
    faultRecord := (faultRecordInv_of_not_faulted _ (by simp)).2 ⟨rfl, rfl, rfl⟩
    debug := fun _ => ⟨rfl, rfl⟩ }

/-- Settles O48: no byte exists in the empty memory, and every other element is as `State.resetWith` writes it. -/
theorem resetPutsEveryElementInItsResetValue : Obligations.ResetPutsEveryElementInItsResetValue := by
  intro bytes mode params
  have hbyte (a : Nat) : Memory.empty.byte? a = none := if_neg (Nat.not_lt_zero a)
  exact ⟨rfl, rfl, rfl, rfl, rfl, rfl, rfl, hbyte, rfl, rfl, rfl, rfl, rfl⟩

end Sys2Proof.Machine
end

section
/-!
PROOFS. The invariant of EVENTS, `State.eventsInv`: reset establishes it and every step keeps it.
-/
namespace Sys2Proof.Machine

/-! ### Records below an address -/

theorem recordsBelow_nil (pc : Nat) : recordsBelow [] pc := ⟨.nil, by simp⟩

theorem recordsBelow_mono {es : List Event} {pc n : Nat} (h : recordsBelow es pc) (hn : pc ≤ n) :
    recordsBelow es n := by
  refine ⟨h.1, fun e he => ?_⟩
  obtain ⟨a, ha, hlt⟩ := h.2 e he
  exact ⟨a, ha, Nat.lt_of_lt_of_le hlt hn⟩

/-- A record found at pc comes after all those below pc. -/
theorem recordsBelow_append {es : List Event} {e : Event} {pc n : Nat} (h : recordsBelow es pc)
    (he : e.addr = some pc) (hn : pc < n) : recordsBelow (es ++ [e]) n := by
  constructor
  · refine List.pairwise_append.2 ⟨h.1, List.pairwise_singleton _ _, fun d hd e' he' => ?_⟩
    obtain rfl := List.mem_singleton.1 he'
    obtain ⟨a, ha, hlt⟩ := h.2 d hd
    exact ⟨a, pc, ha, he, hlt⟩
  · intro d hd
    rcases List.mem_append.1 hd with hd | hd
    · exact (recordsBelow_mono h (Nat.le_of_lt hn)).2 d hd
    · obtain rfl := List.mem_singleton.1 hd
      exact ⟨pc, he, hn⟩

/-! ### The invariant, case by case -/

theorem eventsInv_of_run (s : State) (hm : s.mode = .run) :
    s.eventsInv ↔ recordsBelow s.events s.pc ∧ ∀ e ∈ s.events, e.kind = .unknown := by
  rw [State.eventsInv, if_pos hm]

theorem eventsInv_of_halted_walk (s : State) (hm : s.mode = .debug) (hr : s.runState = .halted) :
    s.eventsInv ↔ ∃ es, s.events = es ++ [OpRecord.endOfCode.event] ∧ recordsBelow es s.pc := by
  rw [State.eventsInv, if_neg (by simp [hm]), if_pos hr]

theorem eventsInv_of_unhalted_walk (s : State) (hm : s.mode = .debug) (hr : s.runState ≠ .halted) :
    s.eventsInv ↔ recordsBelow s.events s.pc := by
  rw [State.eventsInv, if_neg (by simp [hm]), if_neg hr]

theorem eventsInv_raise {s : State} (h : s.eventsInv) (hrun : s.runState = .running) (c : Cause) (tag : Byte) :
    (s.raise c s.pc tag).eventsInv := by
  cases hm : s.mode with
  | run => exact (eventsInv_of_run (s.raise c s.pc tag) hm).2 ((eventsInv_of_run s hm).1 h)
  | debug =>
    exact (eventsInv_of_unhalted_walk (s.raise c s.pc tag) hm (by simp)).2
      ((eventsInv_of_unhalted_walk s hm (by simp [hrun])).1 h)

theorem eventsInv_finish {s : State} {i : Instr} (h : s.eventsInv) (hm : s.mode = .run) (l : List Word) (m : Memory) :
    ((s.setPc (s.pc + i.width)).finish s.pc i l m).eventsInv := by
  obtain ⟨hbelow, hkind⟩ := (eventsInv_of_run s hm).1 h
  have hwidth := (width_bounds i).1
  refine (eventsInv_of_run ((s.setPc (s.pc + i.width)).finish s.pc i l m) hm).2 ?_
  simp only [State.finish_events, State.setPc_events, State.finish_pc, State.setPc_pc]
  rcases reportOf_cases s.pc i with hnone | ⟨e, hone, haddr, hunknown⟩
  · rw [hnone, List.append_nil]
    exact ⟨recordsBelow_mono hbelow (Nat.le_add_right _ _), hkind⟩
  · rw [hone]
    refine ⟨recordsBelow_append hbelow haddr (by omega), fun d hd => ?_⟩
    rcases List.mem_append.1 hd with hd | hd
    · exact hkind d hd
    · exact List.mem_singleton.1 hd ▸ hunknown

/-- Settles O52: a step in run mode appends UNKNOWN's record or none, a step of the walk the record at pc, which it
leaves behind, or END's, on which it halts. -/
theorem stepKeepsEventsInvariant : Obligations.StepKeepsEventsInvariant := by
  intro s t hinv h
  obtain ⟨hrun, hres⟩ := step_result h
  cases hres with
  | halts mode => exact (eventsInv_of_run s.halt mode).2 ((eventsInv_of_run s mode).1 hinv)
  | raises c tag => exact eventsInv_raise hinv hrun c tag
  | completes i l m mode => exact eventsInv_finish hinv mode l m
  | walkEnds mode =>
    have hbelow := (eventsInv_of_unhalted_walk s mode (by simp [hrun])).1 hinv
    exact (eventsInv_of_halted_walk (s.emit OpRecord.endOfCode).halt mode rfl).2 ⟨s.events, rfl, hbelow⟩
  | walks i mode =>
    have hbelow := (eventsInv_of_unhalted_walk s mode (by simp [hrun])).1 hinv
    have hwidth := (width_bounds i).1
    exact (eventsInv_of_unhalted_walk ((s.emit (i.record s.pc)).setPc (s.pc + i.width)) mode (by simp [hrun])).2
      (recordsBelow_append hbelow rfl (show s.pc < s.pc + i.width by omega))

/-- Settles O51: no record is there yet, and no walk has halted. -/
theorem eventsInvariantHoldsAfterReset : Obligations.EventsInvariantHoldsAfterReset := by
  intro bytes mode params
  cases mode with
  | run => exact (eventsInv_of_run _ rfl).2 ⟨recordsBelow_nil 0, by simp⟩
  | debug => exact (eventsInv_of_unhalted_walk _ rfl (by simp)).2 (recordsBelow_nil 0)

end Sys2Proof.Machine
end

section
/-!
PROOFS. A run-mode meaning forward and back: it always answers a next state, which is the fault entry exactly as the
checks say, or what the effect leaves of the prepared state.
-/
namespace Sys2Proof.Machine

/-! ### Faulting -/

theorem exec_of_check_some {i : Instr} {s : State} {c : Cause} (h : checkOperands i s = some c) :
    exec i s = .next (s.raise c s.pc i.opcode) := by
  rw [exec_eq_execute, execute_of_raised (prepare_of_check_some h)]

/-- StackUnderflow comes before every other check (60_exceptions.md R113). -/
theorem exec_of_underflow {i : Instr} {s : State} (h : s.depth < pops i) :
    exec i s = .next (s.raise .stackUnderflow s.pc i.opcode) :=
  exec_of_check_some (by rw [checkOperands, if_pos h])

theorem exec_of_too_large {i : Instr} {s : State} {r l : Nat} (h : checkOperands i s = none)
    (hr : requiredSize i s = some r) (hl : s.params.memLimit = some l) (hlt : l < r) :
    exec i s = .next (s.raise .memoryLimit s.pc i.opcode) := by
  rw [exec_eq_execute, execute_of_raised (prepare_of_too_large h hr hl hlt)]

/-! ### Completing -/

theorem exec_of_size {i : Instr} {s t : State} {r : Nat} (h : checkOperands i s = none)
    (hr : requiredSize i s = some r) (hf : s.fitsMemLimit r)
    (he : effectOf s.pc i ((s.setMem (s.mem.grow r)).setPc (s.pc + i.width)) = .ok t) : exec i s = .next t := by
  rw [exec_eq_execute, execute_of_ok (prepare_of_size h hr hf) he]

/-- A completed instruction is its effect on the prepared state. -/
theorem exec_completed {i : Instr} {s t : State} (h : exec i s = .next t) (hok : t.runState ≠ .faulted) :
    ∃ p, prepare i s = .ok p ∧ effectOf s.pc i p = .ok t := by
  rw [exec_eq_execute] at h
  rcases execute_next h with hp | ⟨c, rfl, -⟩
  · exact hp
  · exact absurd rfl hok

/-- The prepared state has the stack of `s`, deep enough, and at least the required size of memory. -/
theorem prepare_operands {i : Instr} {s p : State} (h : prepare i s = .ok p) :
    p.stack = s.stack ∧ pops i ≤ s.depth ∧ p.mem.size = max s.mem.size ((requiredSize i s).getD 0) := by
  obtain ⟨hcheck, ⟨hr, rfl⟩ | ⟨r, hr, -, rfl⟩⟩ := prepare_ok h
  · exact ⟨rfl, (checkOperands_eq_none.1 hcheck).1, by simp [hr]⟩
  · exact ⟨rfl, (checkOperands_eq_none.1 hcheck).1, by simp [hr, grow_size]⟩

/-! ### Every meaning and every step has a next state -/

theorem one_le_depth_iff {s : State} : 1 ≤ s.depth ↔ ∃ a rest, s.stack = a :: rest :=
  List.length_pos_iff_exists_cons

theorem two_le_depth_iff {s : State} : 2 ≤ s.depth ↔ ∃ a b rest, s.stack = a :: b :: rest := by
  constructor
  · intro h
    obtain ⟨a, l, hs⟩ := one_le_depth_iff.1 (Nat.le_of_succ_le h)
    rw [State.depth, hs, List.length_cons] at h
    obtain ⟨b, rest, rfl⟩ := List.exists_cons_of_length_pos (Nat.le_of_succ_le_succ h)
    exact ⟨a, b, rest, hs⟩
  · rintro ⟨a, b, rest, hs⟩
    simp [State.depth, hs]

/-- On enough operands and enough memory every effect completes: no accessor's precondition is broken
(20_memory.md R48). -/
theorem effectOf_completes {addr : Nat} {i : Instr} {p : State} (hdepth : pops i ≤ p.depth)
    (hsize : ∀ r, requiredSize i p = some r → r ≤ p.mem.size) : ∃ t, effectOf addr i p = .ok t := by
  cases i with
  | stop | push1 | push2 | push32 | unknown => exact ⟨_, rfl⟩
  | add | mul =>
    obtain ⟨a, b, rest, hs⟩ := two_le_depth_iff.1 hdepth
    exact ⟨_, aluEffect_of_stack hs⟩
  | mload =>
    obtain ⟨offset, rest, hs⟩ := one_le_depth_iff.1 hdepth
    exact ⟨_, mloadEffect_of_stack hs (hsize _ (requiredSize_mload hs))⟩
  | mstore =>
    obtain ⟨offset, value, rest, hs⟩ := two_le_depth_iff.1 hdepth
    exact ⟨_, mstoreEffect_of_stack hs (hsize _ (requiredSize_mstore hs))⟩
  | mstore8 =>
    obtain ⟨offset, value, rest, hs⟩ := two_le_depth_iff.1 hdepth
    exact ⟨_, mstore8Effect_of_stack hs (hsize _ (requiredSize_mstore8 hs))⟩

/-- The required size depends on the stack only (20_memory.md R49). -/
theorem requiredSize_congr {i : Instr} {s p : State} (h : p.stack = s.stack) : requiredSize i p = requiredSize i s := by
  simp [requiredSize, State.peek?, h]

theorem exec_has_next (i : Instr) (s : State) : ∃ t, exec i s = .next t := by
  rw [exec_eq_execute]
  cases hp : prepare i s with
  | error e =>
    obtain ⟨c, -, rfl⟩ | ⟨-, _, _, -, -, -, rfl⟩ := prepare_error hp
    · exact ⟨_, execute_of_raised hp⟩
    · exact ⟨_, execute_of_raised hp⟩
  | ok p =>
    obtain ⟨hstack, hpops, hsize⟩ := prepare_operands hp
    have hdepth : pops i ≤ p.depth := by rwa [State.depth, hstack]
    obtain ⟨t, he⟩ := effectOf_completes (addr := s.pc) hdepth fun r hr => by
      rw [requiredSize_congr hstack] at hr
      rw [hsize, hr]
      exact Nat.le_max_right _ _
    exact ⟨t, execute_of_ok hp he⟩

theorem runStep_has_next (s : State) : ∃ t, runStep s = .next t := by
  unfold runStep
  split
  · exact ⟨_, rfl⟩
  · split
    · exact ⟨_, rfl⟩
    · exact ⟨_, rfl⟩
    · exact exec_has_next _ s

theorem debugStep_has_next (s : State) : ∃ t, debugStep s = .next t := by
  unfold debugStep
  split <;> exact ⟨_, rfl⟩

/-- Settles O17: the checks and the growth come before the effect, which then finds its operands and its memory. -/
theorem runningBlockAlwaysHasNextState : Obligations.RunningBlockAlwaysHasNextState := by
  refine ⟨exec_has_next, fun s hrun => ?_⟩
  cases hmode : s.mode with
  | run => simpa [step, hrun, hmode] using runStep_has_next s
  | debug => simpa [step, hrun, hmode] using debugStep_has_next s

/-- A run-mode step over a fetched instruction is its meaning (40_control.md R80). -/
theorem step_eq_exec {s : State} {i : Instr} {n : Nat} (hrun : s.runState = .running) (hmode : s.mode = .run)
    (hfetch : s.fetch = .op i n) : step s = exec i s := by
  have hpc : ¬ s.codeLen ≤ s.pc := Nat.not_le_of_lt (fetchDecode_op hfetch).2.1
  simp [step, hrun, hmode, runStep, hpc, hfetch]

end Sys2Proof.Machine
end

section
/-!
PROOFS. What a completed instruction does to memory and to the stack below its operands, for every instruction at once.
-/
namespace Sys2Proof.Machine

/-- The three instructions that access data memory (20_memory.md R52). -/
abbrev AccessesMemory (i : Instr) : Prop := i = .mload ∨ i = .mstore ∨ i = .mstore8

theorem requiredSize_eq_none {i : Instr} (h : ¬ AccessesMemory i) (s : State) : requiredSize i s = none := by
  cases i with
  | mload | mstore | mstore8 => simp at h
  | _ => rfl

theorem effectOf_mem {addr : Nat} {i : Instr} {p t : State} (hi : ¬ AccessesMemory i)
    (h : effectOf addr i p = .ok t) : t.mem = p.mem := by
  cases i with
  | mload | mstore | mstore8 => simp at hi
  | stop | push1 | push2 | push32 | unknown => cases h; rfl
  | add | mul => obtain ⟨_, _, _, -, rfl⟩ := aluEffect_ok h; rfl

/-- Below the words popped and pushed the stack is untouched (40_control.md R81). -/
theorem effectOf_stack_drop {addr : Nat} {i : Instr} {p t : State} (h : effectOf addr i p = .ok t) :
    t.stack.drop (pushes i) = p.stack.drop (pops i) := by
  cases i with
  | stop | push1 | push2 | push32 | unknown => cases h; rfl
  | add | mul => obtain ⟨_, _, _, hs, rfl⟩ := aluEffect_ok h; rw [hs]; rfl
  | mload => obtain ⟨_, _, _, hs, rfl⟩ := mloadEffect_ok h; rw [hs]; rfl
  | mstore => obtain ⟨_, _, _, _, hs, rfl, -⟩ := mstoreEffect_ok h; rw [hs]; rfl
  | mstore8 => obtain ⟨_, _, _, _, hs, rfl, -⟩ := mstore8Effect_ok h; rw [hs]; rfl

section
variable {i : Instr} {s t : State} (h : exec i s = .next t) (hok : t.runState ≠ .faulted)
include h hok

theorem exec_pops_le_depth : pops i ≤ s.depth := by
  obtain ⟨p, hp, -⟩ := exec_completed h hok
  exact (prepare_operands hp).2.1

theorem exec_stack_drop : t.stack.drop (pushes i) = s.stack.drop (pops i) := by
  obtain ⟨p, hp, he⟩ := exec_completed h hok
  rw [effectOf_stack_drop he, (prepare_operands hp).1]

/-- MSIZE grows to the required size and no further (20_memory.md R50). -/
theorem exec_mem_size : t.mem.size = max s.mem.size ((requiredSize i s).getD 0) := by
  obtain ⟨p, hp, he⟩ := exec_completed h hok
  obtain ⟨-, -, hsize⟩ := prepare_operands hp
  obtain ⟨l, m, -, hm, -, rfl⟩ := effectOf_ok he
  rw [State.finish_mem, hm, hsize]

theorem exec_mem (hi : ¬ AccessesMemory i) : t.mem = s.mem := by
  obtain ⟨p, hp, he⟩ := exec_completed h hok
  rw [effectOf_mem hi he]
  obtain ⟨-, ⟨-, rfl⟩ | ⟨r, hr, -⟩⟩ := prepare_ok hp
  · rfl
  · rw [requiredSize_eq_none hi] at hr; cases hr

end

/-- Settles O29: the step is the instruction's meaning, and the required size is read off the top of the stack. -/
theorem msizeIsMaxWithRequiredSize : Obligations.MsizeIsMaxWithRequiredSize := by
  intro s t i n hrun hmode hfetch h hok
  rw [step_eq_exec hrun hmode hfetch] at h
  have hpops := exec_pops_le_depth h hok
  have hsize := exec_mem_size h hok
  refine ⟨?_, ?_, fun h1 h2 h3 => ?_⟩
  · rintro (rfl | rfl)
    · obtain ⟨offset, rest, hs⟩ := one_le_depth_iff.1 hpops
      exact ⟨offset, by rw [hs]; rfl, by rw [hsize, requiredSize_mload hs]; rfl⟩
    · obtain ⟨offset, value, rest, hs⟩ := two_le_depth_iff.1 hpops
      exact ⟨offset, by rw [hs]; rfl, by rw [hsize, requiredSize_mstore hs]; rfl⟩
  · rintro rfl
    obtain ⟨offset, value, rest, hs⟩ := two_le_depth_iff.1 hpops
    exact ⟨offset, by rw [hs]; rfl, by rw [hsize, requiredSize_mstore8 hs]; rfl⟩
  · rw [exec_mem h hok (by simp [h1, h2, h3])]

/-- Settles O30: of the next states a step can answer only that of a completed instruction may have another memory, and
it has none if the instruction does not access memory. -/
theorem onlyMemoryInstructionsChangeMemory : Obligations.OnlyMemoryInstructionsChangeMemory := by
  intro s t h hchange
  have hne : t.mem ≠ s.mem := by
    intro heq
    simp [heq] at hchange
  obtain ⟨hrun, hres⟩ := step_result h
  cases hres with
  | halts | raises | walkEnds | walks => exact absurd rfl hne
  | completes i l m mode fetch =>
    rw [step_eq_exec hrun mode fetch] at h
    have hok : ((s.setPc (s.pc + i.width)).finish s.pc i l m).runState ≠ .faulted := finish_not_faulted hrun
    exact ⟨mode, hok, i, _, fetch, by_contra fun hi => hne (exec_mem h hok hi)⟩

theorem reportOf_eq_nil {addr : Nat} {i : Instr} (h : ∀ tag, i ≠ .unknown tag) : reportOf addr i = [] := by
  cases i with
  | unknown tag => exact absurd rfl (h tag)
  | _ => rfl

/-- Settles O44: the next state is `State.finish` of the advanced state, with the memory it started from. -/
theorem frameOfNonMemoryInstructions : Obligations.FrameOfNonMemoryInstructions := by
  intro s t i h1 h2 h3 _ h hok
  have hmem : t.mem = s.mem := exec_mem h hok (by simp [h1, h2, h3])
  have hdrop := exec_stack_drop h hok
  rcases exec_next h with ⟨c, rfl⟩ | ⟨l, m, -, -, rfl⟩
  · exact absurd rfl hok
  · refine ⟨rfl, rfl, rfl, rfl, rfl, rfl, fun hstop => ?_, fun hunknown => ?_, by rw [hmem],
      fun a => by rw [hmem], hdrop⟩
    · rw [State.finish_runState, if_neg hstop, State.setPc_runState]
    · rw [State.finish_events, reportOf_eq_nil hunknown, List.append_nil, State.setPc_events]

end Sys2Proof.Machine
end

section
/-!
PROOFS. The three memory instructions, each as one equation for the next state it completes with; and storing then
loading.
-/
namespace Sys2Proof.Machine

theorem grow_of_le {m : Memory} {n : Nat} (h : n ≤ m.size) : m.grow n = m := by
  rw [Memory.grow, if_neg (Nat.not_lt_of_le h)]

/-- Settles O23: Grow byte by byte, for every memory. -/
theorem growZeroFillsAndNeverShrinks : Obligations.GrowZeroFillsAndNeverShrinks := by
  refine fun m n => ⟨grow_of_le, fun hlt => ⟨?_, fun a => ⟨?_, ?_, ?_⟩⟩⟩
  · rw [grow_size, Nat.max_eq_right (Nat.le_of_lt hlt)]
  · intro ha
    rw [grow_byte, if_pos ha]
  · intro ha hn
    rw [grow_byte, if_neg (by omega), if_pos hn]
    rfl
  · intro hn
    rw [grow_byte, if_neg (by omega), if_neg (by omega)]

/-! ### The completing instructions -/

theorem exec_mload {s : State} {offset : Word} {rest : List Word} (hs : s.stack = offset :: rest)
    (hw : s.withinStackLimit) (hf : s.fitsMemLimit (offset.toNat + 32)) :
    exec .mload s = .next { s with
      pc := s.pc + 1
      stack := beToWord ((s.mem.grow (offset.toNat + 32)).getBytes offset.toNat 32) :: rest
      mem := s.mem.grow (offset.toNat + 32) } :=
  exec_of_size (checkOperands_of_within hw (one_le_depth_iff.2 ⟨_, _, hs⟩) (Nat.le_refl 1))
    (requiredSize_mload hs) hf (mloadEffect_of_stack hs (by simp [grow_size]))

theorem exec_mstore {s : State} {offset value : Word} {rest : List Word} (hs : s.stack = offset :: value :: rest)
    (hw : s.withinStackLimit) (hf : s.fitsMemLimit (offset.toNat + 32)) :
    exec .mstore s = .next { s with
      pc := s.pc + 1
      stack := rest
      mem := (s.mem.grow (offset.toNat + 32)).setBytes offset.toNat (wordToBe32 value) } :=
  exec_of_size (checkOperands_of_within hw (two_le_depth_iff.2 ⟨_, _, _, hs⟩) (Nat.zero_le 2))
    (requiredSize_mstore hs) hf (mstoreEffect_of_stack hs (by simp [grow_size]))

theorem exec_mstore8 {s : State} {offset value : Word} {rest : List Word} (hs : s.stack = offset :: value :: rest)
    (hw : s.withinStackLimit) (hf : s.fitsMemLimit (offset.toNat + 1)) :
    exec .mstore8 s = .next { s with
      pc := s.pc + 1
      stack := rest
      mem := (s.mem.grow (offset.toNat + 1)).setBytes offset.toNat [value.extractLsb' 0 8] } :=
  exec_of_size (checkOperands_of_within hw (two_le_depth_iff.2 ⟨_, _, _, hs⟩) (Nat.zero_le 2))
    (requiredSize_mstore8 hs) hf (mstore8Effect_of_stack hs (by simp [grow_size]))

/-! ### Grow and store, byte by byte -/

theorem setBytes_grow_size (m : Memory) (a : Nat) (bs : List Byte) :
    ((m.grow (a + bs.length)).setBytes a bs).size = max m.size (a + bs.length) := by
  rw [setBytes_size, grow_size]

/-- Every byte after memory has grown to hold `bs` at `a` and `bs` was stored there. -/
theorem setBytes_grow_byte (m : Memory) (a : Nat) (bs : List Byte) (x : Nat) :
    ((m.grow (a + bs.length)).setBytes a bs).byte? x =
      if a ≤ x ∧ x < a + bs.length then some (bs.getD (x - a) 0)
      else if x < m.size then m.byte? x else if x < max m.size (a + bs.length) then some 0x00 else none := by
  rw [setBytes_byte _ _ _ (by simp [grow_size]), grow_byte]
  by_cases hin : a ≤ x ∧ x < a + bs.length
  · rw [if_pos hin, if_pos hin]
  · rw [if_neg hin, if_neg hin]
    by_cases hold : x < m.size
    · rw [if_pos hold, if_pos hold]
    · simp [hold, unlistedByte]

/-- Settles O26: grow and store at one address; the checks raise before. -/
theorem mstore8WritesLowByte : Obligations.Mstore8WritesLowByte := by
  refine ⟨rfl, fun s offset value rest hs hw hf => ?_, fun s hd => exec_of_underflow hd, ?_⟩
  · have hbyte := setBytes_grow_byte s.mem offset.toNat [value.extractLsb' 0 8]
    have hsize := setBytes_grow_size s.mem offset.toNat [value.extractLsb' 0 8]
    refine ⟨_, hsize, ?_, fun a ha => ?_, exec_mstore8 hs hw hf⟩
    · rw [hbyte, if_pos (by simp)]
      simp
    · rw [hbyte, if_neg (by simp; omega), hsize]
  · intro s offset value rest l hs hw hl hlt
    exact exec_of_too_large (checkOperands_of_within hw (two_le_depth_iff.2 ⟨_, _, _, hs⟩) (Nat.zero_le 2))
      (requiredSize_mstore8 hs) hl hlt

/-! ### Storing, then loading -/

theorem getBytes_setBytes (m : Memory) (a : Nat) (bs : List Byte) :
    (m.setBytes a bs).getBytes a bs.length = bs := by
  apply List.ext_getElem
  · simp
  · intro k _ hk
    rw [getBytes_getElem, setBytes_get, if_pos (by omega)]
    simp [hk]

/-- Popping keeps a state within STACK_LIMIT. -/
theorem withinStackLimit_of_le {s t : State} (h : s.withinStackLimit) (hp : t.params = s.params)
    (hd : t.depth ≤ s.depth) : t.withinStackLimit :=
  fun n hn => Nat.le_trans hd (h n (hp ▸ hn))

theorem fitsMemLimit_of_le {s : State} {q r : Nat} (h : s.fitsMemLimit r) (hle : q ≤ r) : s.fitsMemLimit q :=
  fun l hl => Nat.le_trans hle (h l hl)

/-- Settles O27: the load finds memory grown already, and reads the 32 bytes of the word. -/
theorem storeThenLoadReturnsWord : Obligations.StoreThenLoadReturnsWord := by
  intro s offset value rest hs hw hf
  have hsize : offset.toNat + 32 ≤
      ((s.mem.grow (offset.toNat + 32)).setBytes offset.toNat (wordToBe32 value)).size := by
    rw [setBytes_size, grow_size]
    exact Nat.le_max_right _ _
  have hread := getBytes_setBytes (s.mem.grow (offset.toNat + 32)) offset.toNat (wordToBe32 value)
  rw [wordToBe32_length] at hread
  refine ⟨_, _, exec_mstore hs hw hf, exec_mload rfl (withinStackLimit_of_le hw rfl ?_) hf, ?_, ?_⟩
  · simp [State.depth, hs]
  · rw [grow_of_le hsize, hread, beToWord_wordToBe32]
  · exact grow_of_le hsize

/-- Settles O28: byte a - b of the loaded word is the byte at a, which growing for the load keeps. -/
theorem storedByteSeenInLoadedWord : Obligations.StoredByteSeenInLoadedWord := by
  intro s a b value rest hs hw hf hba hab
  refine ⟨_, _, _, exec_mstore8 hs hw (fitsMemLimit_of_le hf (by omega)),
    exec_mload rfl (withinStackLimit_of_le hw rfl ?_) hf, rfl, ?_⟩
  · simp [State.depth, hs]
  · have hk : a.toNat - b.toNat < 32 := by omega
    have hbit : 8 * (31 - (a.toNat - b.toNat)) = 248 - 8 * (a.toNat - b.toNat) := by omega
    rw [hbit, ← wordByte, wordByte_beToWord _ (by simp) _ hk, getBytes_getElem, Nat.add_sub_cancel' hba, grow_get,
      setBytes_get, if_pos (by simp)]
    · simp
    · simp [grow_size]

end Sys2Proof.Machine
end

section
/-!
PROOFS. Encoding and decoding (30_encoding.md R63 to R70): the opcode byte fixes how many immediate bytes follow, and
`encode` and the map from those bytes to an instruction are inverse to each other.
-/
namespace Sys2Proof

/-! ### The opcode map -/

theorem mem_instructionOpcodes {t : Byte} : t ∈ instructionOpcodes ↔
    t = 0x00 ∨ t = 0x01 ∨ t = 0x02 ∨ t = 0x51 ∨ t = 0x52 ∨ t = 0x53 ∨ t = 0x60 ∨ t = 0x61 ∨ t = 0x7f := by
  simp only [instructionOpcodes, List.mem_cons, List.not_mem_nil, or_false]

theorem immLength_of_not_mem {t : Byte} (h : t ∉ instructionOpcodes) : immLength t = 0 := by
  simp only [mem_instructionOpcodes, not_or] at h
  simp only [immLength, h, if_false]

theorem instrOf_of_not_mem {t : Byte} (h : t ∉ instructionOpcodes) (imm : List Byte) : instrOf t imm = .unknown t := by
  simp only [mem_instructionOpcodes, not_or] at h
  simp only [instrOf, h, if_false]

theorem wf_unknown_iff {t : Byte} : (Instr.unknown t).wf = true ↔ t ∉ instructionOpcodes := by
  simp [Instr.wf]

/-- A byte announces no immediate, or it is the opcode of one of the three pushes (30_encoding.md R65). -/
theorem immLength_cases (t : Byte) : immLength t = 0 ∨ t = 0x60 ∨ t = 0x61 ∨ t = 0x7f := by
  unfold immLength
  split_ifs with h60 h61 h7f
  · exact .inr (.inl h60)
  · exact .inr (.inr (.inl h61))
  · exact .inr (.inr (.inr h7f))
  · exact .inl rfl

/-- Without an immediate the opcode byte is the whole encoding, and the record's imm is 0. -/
theorem instrOf_of_immLength_zero {t : Byte} (h : immLength t = 0) (imm : List Byte) :
    encode (instrOf t imm) = [t] ∧ (instrOf t imm).imm = 0 := by
  by_cases ht : t ∈ instructionOpcodes
  · rcases mem_instructionOpcodes.1 ht with rfl | rfl | rfl | rfl | rfl | rfl | rfl | rfl | rfl
    any_goals exact ⟨rfl, rfl⟩
    all_goals cases h
  · rw [instrOf_of_not_mem ht]
    exact ⟨rfl, rfl⟩

/-! ### The immediates of the pushes -/

theorem beToNat_singleton (b : Byte) : beToNat [b] = b.toNat := by
  simp [beToNat]

theorem beToNat_pair (hi lo : Byte) : beToNat [hi, lo] = (hi ++ lo).toNat := by
  have hlo : lo.toNat < 2 ^ 8 := lo.isLt
  rw [BitVec.toNat_append, ← Nat.shiftLeft_add_eq_or_of_lt hlo, Nat.shiftLeft_eq]
  simp [beToNat]

theorem instrOf_push1 (b : Byte) : instrOf 0x60 [b] = .push1 b := by
  change Instr.push1 (BitVec.ofNat 8 (beToNat [b])) = _
  rw [beToNat_singleton, BitVec.ofNat_toNat, BitVec.setWidth_eq]

theorem instrOf_push2 (hi lo : Byte) : instrOf 0x61 [hi, lo] = .push2 (hi ++ lo) := by
  change Instr.push2 (BitVec.ofNat 16 (beToNat [hi, lo])) = _
  rw [beToNat_pair, BitVec.ofNat_toNat, BitVec.setWidth_eq]

theorem instrOf_push32 (imm : List Byte) : instrOf 0x7f imm = .push32 (beToWord imm) := rfl

theorem extractLsb'_append_high (hi lo : Byte) : (hi ++ lo).extractLsb' 8 8 = hi :=
  BitVec.extractLsb'_append_of_eq (k := 1) (i := 1) rfl

theorem extractLsb'_append_low (hi lo : Byte) : (hi ++ lo).extractLsb' 0 8 = lo := by
  have := BitVec.extractLsb'_append_of_lt (k := 1) (i := 0) (x := lo) (y := hi) (by omega)
  simpa using this

theorem extractLsb'_high_append_low (v : BitVec 16) : v.extractLsb' 8 8 ++ v.extractLsb' 0 8 = v :=
  BitVec.extractLsb'_append_extractLsb' (w := 8) (len := 8)

/-- The record's imm is the big-endian number of as many bytes as the opcode byte announces (30_encoding.md R69). -/
theorem instrOf_imm {t : Byte} {imm : List Byte} (h : imm.length = immLength t) : (instrOf t imm).imm = beToWord imm := by
  rcases immLength_cases t with ht | rfl | rfl | rfl
  · rw [(instrOf_of_immLength_zero ht imm).2, List.eq_nil_of_length_eq_zero (h.trans ht)]
    rfl
  · exact BitVec.setWidth_ofNat_of_le_of_lt (by decide) (h ▸ beToNat_lt imm :)
  · exact BitVec.setWidth_ofNat_of_le_of_lt (by decide) (h ▸ beToNat_lt imm :)
  · rfl

/-! ### The two round trips -/

theorem encode_instrOf {t : Byte} {imm : List Byte} (h : imm.length = immLength t) :
    encode (instrOf t imm) = t :: imm := by
  rcases immLength_cases t with ht | rfl | rfl | rfl
  · rw [(instrOf_of_immLength_zero ht imm).1, List.eq_nil_of_length_eq_zero (h.trans ht)]
  · obtain ⟨b, rfl⟩ := List.length_eq_one_iff.1 h
    rw [instrOf_push1]
    rfl
  · obtain ⟨hi, lo, rfl⟩ := List.length_eq_two.1 h
    rw [instrOf_push2, encode, extractLsb'_append_high, extractLsb'_append_low]
  · rw [instrOf_push32, encode, wordToBe32_beToWord imm h]

/-- A well-formed instruction's bytes: its opcode byte, and the immediate that byte announces, from which the opcode map
gives the instruction back. -/
theorem encode_eq_cons {i : Instr} (h : i.wf = true) :
    ∃ imm, encode i = i.opcode :: imm ∧ imm.length = immLength i.opcode ∧ instrOf i.opcode imm = i := by
  cases i with
  | stop | add | mul | mload | mstore | mstore8 => exact ⟨[], rfl, rfl, rfl⟩
  | push1 v => exact ⟨[v], rfl, rfl, instrOf_push1 v⟩
  | push2 v =>
    refine ⟨_, rfl, rfl, ?_⟩
    rw [Instr.opcode, instrOf_push2, extractLsb'_high_append_low]
  | push32 v =>
    refine ⟨wordToBe32 v, rfl, wordToBe32_length v, ?_⟩
    rw [Instr.opcode, instrOf_push32, beToWord_wordToBe32]
  | unknown t =>
    have ht := wf_unknown_iff.1 h
    exact ⟨[], rfl, (immLength_of_not_mem ht).symm, instrOf_of_not_mem ht []⟩

theorem decode_of_immediate {t : Byte} {imm : List Byte} (h : imm.length = immLength t) (rest : List Byte) :
    decode (t :: (imm ++ rest)) = .instr (instrOf t imm) rest := by
  have hlen : ¬ (imm ++ rest).length < immLength t := by simp [h]
  rw [decode, if_neg hlen, ← h, List.take_left, List.drop_left]

/-- Settles O2: an encoding is an opcode byte and its immediate, which the opcode map takes back. -/
theorem encodeThenDecodeGivesInstrBack : Obligations.EncodeThenDecodeGivesInstrBack := by
  intro i rest hwf
  obtain ⟨imm, henc, hlen, hinstr⟩ := encode_eq_cons hwf
  rw [henc, List.cons_append, decode_of_immediate hlen, hinstr]

/-- Settles O3: the decoder takes exactly the announced immediate, which the encoding writes back. -/
theorem decodeThenEncodeGivesBytesBack : Obligations.DecodeThenEncodeGivesBytesBack := by
  intro bs i rest h
  obtain ⟨-, hd⟩ | ⟨_, _, -, -, hd⟩ | ⟨t, tail, rfl, hlen, hd⟩ := decode_cases bs
  · cases hd.symm.trans h
  · cases hd.symm.trans h
  · cases hd.symm.trans h
    have himm : (tail.take (immLength t)).length = immLength t := List.length_take_of_le hlen
    refine ⟨(instrOf_opcode t _).2, ?_, ?_⟩
    · rw [encode_instrOf himm, List.cons_append, List.take_append_drop]
    · rw [encode_instrOf himm, instrOf_width, List.length_cons, himm, Nat.add_comm]

/-- Bytes after a decoded instruction do not change it (30_encoding.md R67). -/
theorem decode_append {bs rest : List Byte} {i : Instr} (h : decode bs = .instr i rest) (more : List Byte) :
    decode (bs ++ more) = .instr i (rest ++ more) := by
  obtain ⟨hwf, rfl, -⟩ := decodeThenEncodeGivesBytesBack bs i rest h
  rw [List.append_assoc, encodeThenDecodeGivesInstrBack i (rest ++ more) hwf]

/-! ### The opcode map and the immediates, as the decoder shows them -/

theorem decode_unknown {t : Byte} (h : t ∉ instructionOpcodes) (rest : List Byte) :
    decode (t :: rest) = .instr (.unknown t) rest :=
  encodeThenDecodeGivesInstrBack (.unknown t) rest (wf_unknown_iff.2 h)

/-- The bytes of the spec's four ranges select no instruction (30_encoding.md R65). -/
theorem not_mem_instructionOpcodes {t : Byte}
    (h : (0x03 ≤ t.toNat ∧ t.toNat ≤ 0x50) ∨ (0x54 ≤ t.toNat ∧ t.toNat ≤ 0x5f) ∨
      (0x62 ≤ t.toNat ∧ t.toNat ≤ 0x7e) ∨ 0x80 ≤ t.toNat) : t ∉ instructionOpcodes := by
  rw [mem_instructionOpcodes]
  bv_omega

/-- Settles O4: the opcode map on the announced immediate, and UNKNOWN outside the nine bytes. -/
theorem opcodeMapOfEveryByte : Obligations.OpcodeMapOfEveryByte := by
  intro rest
  have hnullary (t : Byte) (ht : immLength t = 0) : decode (t :: rest) = .instr (instrOf t []) rest :=
    decode_of_immediate (imm := []) ht.symm rest
  refine ⟨hnullary _ rfl, hnullary _ rfl, hnullary _ rfl, hnullary _ rfl, hnullary _ rfl, hnullary _ rfl,
    fun b => ?_, fun b c => ?_, fun imm himm => ?_, fun t ht => ?_⟩
  · rw [← instrOf_push1]
    exact decode_of_immediate (imm := [b]) rfl rest
  · rw [← instrOf_push2]
    exact decode_of_immediate (imm := [b, c]) rfl rest
  · exact decode_of_immediate himm rest
  · exact decode_unknown (not_mem_instructionOpcodes ht) rest

/-- Settles O5: the 16 bits are the first byte followed by the second. -/
theorem push2ReadsTwoDistinctBytes : Obligations.Push2ReadsTwoDistinctBytes := by
  intro hi lo rest
  have himm : [hi, lo].length = immLength 0x61 := rfl
  refine ⟨hi ++ lo, ?_, extractLsb'_append_high hi lo, extractLsb'_append_low hi lo, ?_⟩
  · rw [← instrOf_push2]
    exact decode_of_immediate himm rest
  · rw [← instrOf_push2, instrOf_imm himm, beToWord_toNat _ (by simp)]
    simp [beToNat]

/-- Settles O6: the announced immediate is at most 32 bytes, so its number fits the word. -/
theorem immediateIsBigEndianZeroExtended : Obligations.ImmediateIsBigEndianZeroExtended := by
  intro t imm rest hlen
  have himm : imm.length = immLength t := hlen
  refine ⟨instrOf t imm, decode_of_immediate himm rest, (instrOf_opcode t imm).1, ?_⟩
  rw [instrOf_imm himm, beToWord_toNat imm (himm ▸ immLength_le t)]

/-- Settles O7: the five words are encodings, so O2 decodes them. -/
theorem writtenOutWordsDecode : Obligations.WrittenOutWordsDecode :=
  ⟨encodeThenDecodeGivesInstrBack .add [] rfl, encodeThenDecodeGivesInstrBack .mstore [] rfl,
    encodeThenDecodeGivesInstrBack (.push1 0x2a) [] rfl, encodeThenDecodeGivesInstrBack (.push2 0x1234) [] rfl,
    encodeThenDecodeGivesInstrBack (.unknown 0x62) [0b00000001#8] rfl⟩

end Sys2Proof
end

section
/-!
PROOFS. The fetch-decode stage (30_encoding.md R71 to R74): what it answers on an encoding at pc, at the end of the code
and on a truncated push.
-/
namespace Sys2Proof

theorem fetchDecode_of_decode {code rest : List Byte} {pc : Nat} {i : Instr} (h : decode (code.drop pc) = .instr i rest)
    (policy : OobImmPolicy) : fetchDecode policy code pc = .op i (pc + i.width) := by
  rw [fetchDecode, h]

theorem fetchDecode_of_length_le {code : List Byte} {pc : Nat} (h : code.length ≤ pc) (policy : OobImmPolicy) :
    fetchDecode policy code pc = .endOfCode := by
  rw [fetchDecode, List.drop_eq_nil_of_le h, decode]

theorem fetchDecode_of_short {code avail : List Byte} {pc : Nat} {t : Byte} (hdrop : code.drop pc = t :: avail)
    (hshort : avail.length < immLength t) (policy : OobImmPolicy) :
    fetchDecode policy code pc = decodeOutOfBounds policy pc t (immLength t) avail := by
  rw [fetchDecode, hdrop, decode, if_pos hshort]

/-- The three opcode bytes with an immediate, as the statements list them (30_encoding.md R65). -/
theorem immLength_of_push {t : Byte} {n : Nat}
    (h : (t = 0x60 ∧ n = 1) ∨ (t = 0x61 ∧ n = 2) ∨ (t = 0x7f ∧ n = 32)) : immLength t = n := by
  rcases h with ⟨rfl, rfl⟩ | ⟨rfl, rfl⟩ | ⟨rfl, rfl⟩ <;> rfl

/-- Under ZeroPad a truncated push is decoded with the missing, least significant, bytes 0x00 (30_encoding.md R74). -/
theorem fetchDecode_zeroPad_of_short {code avail : List Byte} {pc : Nat} {t : Byte} (hdrop : code.drop pc = t :: avail)
    (hshort : avail.length < immLength t) :
    ∃ i : Instr, fetchDecode .zeroPad code pc = .op i (pc + 1 + immLength t) ∧
      i.opcode = t ∧ i.width = 1 + immLength t ∧
      i.imm = beToWord (avail ++ List.replicate (immLength t - avail.length) 0x00) := by
  refine ⟨_, fetchDecode_of_short hdrop hshort .zeroPad, (instrOf_opcode t _).1, instrOf_width t _, instrOf_imm ?_⟩
  rw [List.length_append, List.length_replicate, Nat.add_sub_of_le (Nat.le_of_lt hshort)]

/-- Settles O8: the decoder gives the instruction back from its encoding, whatever the policy. -/
theorem fetchDecodeReadsInstrAtPc : Obligations.FetchDecodeReadsInstrAtPc := by
  intro policy front rest i hwf
  apply fetchDecode_of_decode (rest := rest)
  rw [List.append_assoc, List.drop_left, encodeThenDecodeGivesInstrBack i rest hwf]

/-- Inside the code END comes only from the policy End. -/
theorem fetchDecode_ne_endOfCode {policy : OobImmPolicy} {code : List Byte} {pc : Nat} (hpolicy : policy ≠ .endRun)
    (hpc : pc < code.length) : fetchDecode policy code pc ≠ .endOfCode := by
  obtain ⟨hend, -⟩ | ⟨t, avail, -, -, hf⟩ | ⟨t, rest, -, -, -, hf⟩ := fetchDecode_cases policy code pc
  · omega
  · rw [hf]
    cases policy with
    | fault | zeroPad => exact Fetched.noConfusion
    | endRun => exact absurd rfl hpolicy
  · rw [hf]
    exact Fetched.noConfusion

theorem decode_cons_ne_noBytes (b : Byte) (bs : List Byte) : decode (b :: bs) ≠ .noBytes := by
  rw [decode]
  split <;> exact Decoded.noConfusion

/-- Settles O9: no byte is left exactly at and beyond the end of the code. -/
theorem endIsDecodedExactlyPastTheCode : Obligations.EndIsDecodedExactlyPastTheCode :=
  ⟨fun policy _ _ hpc => fetchDecode_of_length_le hpc policy, fun _ => rfl,
    fun _ _ _ hpolicy hpc => fetchDecode_ne_endOfCode hpolicy hpc, decode_cons_ne_noBytes, rfl, rfl, rfl⟩

/-- Settles O10: the three policies on the one short decode; the padded push ends beyond the code. -/
theorem truncatedImmediateFollowsPolicy : Obligations.TruncatedImmediateFollowsPolicy := by
  intro front avail t n hpush hshort
  obtain rfl := immLength_of_push hpush
  have hdrop : (front ++ t :: avail).drop front.length = t :: avail := List.drop_left
  refine ⟨fetchDecode_of_short hdrop hshort .fault, fetchDecode_of_short hdrop hshort .endRun,
    fetchDecode_zeroPad_of_short hdrop hshort, fetchDecode_of_length_le ?_ .zeroPad⟩
  rw [List.length_append, List.length_cons]
  omega

end Sys2Proof
end

section
/-!
PROOFS. The step of each mode on each answer of fetch-decode (40_control.md R80, R84), and on a word laid at pc (log 4).
-/
namespace Sys2Proof.Machine

/-! ### The step, by what it fetches -/

section
variable {s : State} (hrun : s.runState = .running)
include hrun

theorem step_run_of_fetch_end (hmode : s.mode = .run) (hfetch : s.fetch = .endOfCode) : step s = .next s.halt := by
  simp [step, hrun, hmode, runStep, hfetch]

theorem step_debug_of_fetch_end (hmode : s.mode = .debug) (hfetch : s.fetch = .endOfCode) :
    step s = .next (s.emit OpRecord.endOfCode).halt := by
  simp [step, hrun, hmode, debugStep, hfetch]

/-- OutOfBoundsImmediate is raised in both modes alike (92_eei_decisions.md D23). -/
theorem step_of_fetch_outOfBounds {tag : Byte} (hfetch : s.fetch = .outOfBounds tag) :
    step s = .next (s.raise .outOfBoundsImmediate s.pc tag) := by
  cases hmode : s.mode with
  | run =>
    have hpc : ¬ s.codeLen ≤ s.pc := by
      intro hend
      cases (fetchDecode_of_length_le hend _).symm.trans hfetch
    simp [step, hrun, hmode, runStep, hpc, hfetch]
  | debug => simp [step, hrun, hmode, debugStep, hfetch]

theorem step_debug_of_fetch_op {i : Instr} {n : Nat} (hmode : s.mode = .debug) (hfetch : s.fetch = .op i n) :
    step s = .next ((s.emit (i.record s.pc)).setPc n) := by
  simp [step, hrun, hmode, debugStep, hfetch]

end

/-- Settles O16: the fetched answer under each policy, and the step on it in each mode. -/
theorem truncatedPushStepInBothModes : Obligations.TruncatedPushStepInBothModes := by
  intro s t n avail hrun hdrop hpush hshort
  obtain rfl := immLength_of_push hpush
  have hfetch {policy : OobImmPolicy} (hp : s.params.oobImmPolicy = policy) :
      s.fetch = decodeOutOfBounds policy s.pc t (immLength t) avail :=
    hp ▸ fetchDecode_of_short hdrop hshort s.params.oobImmPolicy
  refine ⟨fun hp => ?_, fun hp hmode => ?_, fun hp hmode => ?_, fun hp => ?_⟩
  · exact step_of_fetch_outOfBounds hrun (hfetch hp)
  · exact step_run_of_fetch_end hrun hmode (hfetch hp)
  · exact step_debug_of_fetch_end hrun hmode (hfetch hp)
  · obtain ⟨i, hop, rfl, -, himm⟩ := fetchDecode_zeroPad_of_short hdrop hshort
    rw [← hp] at hop
    exact ⟨i, rfl, himm, fun hmode => step_eq_exec hrun hmode hop, fun hmode => step_debug_of_fetch_op hrun hmode hop⟩

/-- Settles O47: the meaning moves pc by the width in run mode, and the walk to the fetched next pc in debug mode. -/
theorem pcAdvancesByExactlyTheWidth : Obligations.PcAdvancesByExactlyTheWidth := by
  intro s t i n hfetch hstep hok
  obtain ⟨-, -, hn, -⟩ := fetchDecode_op hfetch
  refine ⟨hn, ?_⟩
  obtain ⟨hrun, -⟩ := step_next hstep
  cases hmode : s.mode with
  | run =>
    rw [step_eq_exec hrun hmode hfetch] at hstep
    obtain ⟨c, rfl⟩ | ⟨l, m, -, -, rfl⟩ := exec_next hstep
    · exact absurd rfl hok
    · rfl
  | debug =>
    cases (step_debug_of_fetch_op hrun hmode hfetch).symm.trans hstep
    exact hn

/-! ### A word laid at pc -/

theorem drop_codeWithBytesAt (code : List Byte) (pc : Nat) (bs : List Byte) :
    (codeWithBytesAt code pc bs).drop pc = bs ++ code.drop (pc + bs.length) := by
  have hfront : (code.take pc ++ List.replicate (pc - code.length) 0x00).length = pc := by
    rw [List.length_append, List.length_take, List.length_replicate]
    omega
  rw [codeWithBytesAt, List.append_assoc, List.drop_left' hfront]

theorem decodeTableWord_eq_some {nbits w : Nat} {i : Instr} (h : decodeTableWord nbits w = some i) :
    ∃ rest, decode (tableBytes nbits w) = .instr i rest := by
  rw [decodeTableWord] at h
  split at h
  · next rest hd =>
    cases h
    exact ⟨rest, hd⟩
  · cases h
  · cases h

/-- Settles O55: the decoder reads the laid bytes as it reads the word, since what follows them changes nothing. -/
theorem fetchWordIsRunByTheNextStep : Obligations.FetchWordIsRunByTheNextStep := by
  intro s nbits w i hword
  obtain ⟨rest, hd⟩ := decodeTableWord_eq_some hword
  have hlaid : decode ((s.withFetchWord nbits w).code.drop s.pc) =
      .instr i (rest ++ s.code.drop (s.pc + (tableBytes nbits w).length)) := by
    rw [State.withFetchWord, drop_codeWithBytesAt, decode_append hd]
  exact step_eq_exec rfl rfl (fetchDecode_of_decode hlaid _)

end Sys2Proof.Machine
end

section
/-!
PROOFS. The step on an encoding at pc and at the end of the code, in each mode (40_control.md R80, R82, R84), and what
debug mode leaves alone.
-/
namespace Sys2Proof.Machine

theorem fetch_of_encoding {s : State} {i : Instr} {rest : List Byte} (hwf : i.wf = true)
    (hdrop : s.code.drop s.pc = encode i ++ rest) : s.fetch = .op i (s.pc + i.width) :=
  fetchDecode_of_decode (hdrop ▸ encodeThenDecodeGivesInstrBack i rest hwf) _

/-- Settles O11: the encoding at pc is fetched, and a step over a fetched instruction is its meaning. -/
theorem runStepExecutesInstrAtPc : Obligations.RunStepExecutesInstrAtPc := by
  intro s i rest hrun hmode hwf hdrop
  exact step_eq_exec hrun hmode (fetch_of_encoding hwf hdrop)

/-- Settles O12: at and past the end of the code END is fetched, also right after a reset without code. -/
theorem runStepHaltsAtEndOfCode : Obligations.RunStepHaltsAtEndOfCode := by
  have hends (s : State) (hrun : s.runState = .running) (hmode : s.mode = .run) (hpc : s.codeLen ≤ s.pc) :
      step s = .next s.halt :=
    step_run_of_fetch_end hrun hmode (fetchDecode_of_length_le hpc _)
  exact ⟨hends, fun params =>
    ⟨_, hends (State.resetWith [] .run params) rfl rfl (Nat.le_refl 0), rfl, rfl, rfl, rfl, rfl⟩⟩

/-- Settles O18: `step` looks at RUN_STATE first. -/
theorem noStepFromHaltedOrFaulted : Obligations.NoStepFromHaltedOrFaulted := by
  intro s
  constructor
  · intro h
    rw [step, h]
  · intro h
    rw [step, h]

/-- Settles O13: the walk's step on a fetched instruction, and on END. -/
theorem debugStepEmitsRecordOfInstrAtPc : Obligations.DebugStepEmitsRecordOfInstrAtPc :=
  ⟨fun _ _ _ hrun hmode hwf hdrop => step_debug_of_fetch_op hrun hmode (fetch_of_encoding hwf hdrop),
    fun _ hrun hmode hpc => step_debug_of_fetch_end hrun hmode (fetchDecode_of_length_le hpc _)⟩

/-- OutOfBoundsImmediate comes only from the policy Fault (30_encoding.md R74). -/
theorem policy_of_fetchDecode_outOfBounds {policy : OobImmPolicy} {code : List Byte} {pc : Nat} {tag : Byte}
    (h : fetchDecode policy code pc = .outOfBounds tag) : policy = .fault := by
  obtain ⟨-, hf⟩ | ⟨t, avail, -, -, hf⟩ | ⟨t, rest, -, -, -, hf⟩ := fetchDecode_cases policy code pc
  · cases hf.symm.trans h
  · cases policy with
    | fault => rfl
    | endRun | zeroPad => cases hf.symm.trans h
  · cases hf.symm.trans h

/-- Everything a debug-mode step can do when it answers a next state (40_control.md R84). -/
theorem debug_step_next {s t : State} (hmode : s.mode = .debug) (h : step s = .next t) :
    (s.fetch = .endOfCode ∧ t = (s.emit OpRecord.endOfCode).halt) ∨
      (∃ tag, s.fetch = .outOfBounds tag ∧ t = s.raise .outOfBoundsImmediate s.pc tag) ∨
      ∃ i n, s.fetch = .op i n ∧ t = (s.emit (i.record s.pc)).setPc n := by
  obtain ⟨hrun, -⟩ := step_next h
  cases hfetch : s.fetch with
  | endOfCode =>
    cases (step_debug_of_fetch_end hrun hmode hfetch).symm.trans h
    exact .inl ⟨rfl, rfl⟩
  | outOfBounds tag =>
    cases (step_of_fetch_outOfBounds hrun hfetch).symm.trans h
    exact .inr (.inl ⟨tag, rfl, rfl⟩)
  | op i n =>
    cases (step_debug_of_fetch_op hrun hmode hfetch).symm.trans h
    exact .inr (.inr ⟨i, n, rfl, rfl⟩)

/-- Settles O14: none of the three next states of a walk's step has another stack or memory, and only fetch-decode
raises. -/
theorem debugStepTouchesNoStackOrMemory : Obligations.DebugStepTouchesNoStackOrMemory := by
  intro s t hmode h
  obtain ⟨hrun, -⟩ := step_next h
  obtain ⟨-, rfl⟩ | ⟨tag, hfetch, rfl⟩ | ⟨i, n, -, rfl⟩ := debug_step_next hmode h
  · exact ⟨rfl, rfl, fun hf => by cases hf⟩
  · exact ⟨rfl, rfl, fun _ => ⟨rfl, policy_of_fetchDecode_outOfBounds hfetch⟩⟩
  · exact ⟨rfl, rfl, fun hf => by cases hrun.symm.trans hf⟩

/-- Settles O15: fetch-decode reads neither stack nor memory, so the other state's step fetches the same. -/
theorem debugStepIsBlindToStackAndMemory : Obligations.DebugStepIsBlindToStackAndMemory := by
  intro s t stack mem hmode h
  obtain ⟨hrun, -⟩ := step_next h
  obtain ⟨hfetch, rfl⟩ | ⟨tag, hfetch, rfl⟩ | ⟨i, n, hfetch, rfl⟩ := debug_step_next hmode h
  · exact step_debug_of_fetch_end (s := (s.setStack stack).setMem mem) hrun hmode hfetch
  · exact step_of_fetch_outOfBounds (s := (s.setStack stack).setMem mem) hrun hfetch
  · exact step_debug_of_fetch_op (s := (s.setStack stack).setMem mem) hrun hmode hfetch

end Sys2Proof.Machine
end

section
/-!
PROOFS. STOP and UNKNOWN, the two kinds with no operands (40_control.md R85, R86), and the overflow check of R81.
-/
namespace Sys2Proof.Machine

theorem exec_of_no_size {i : Instr} {s t : State} (h : checkOperands i s = none) (hr : requiredSize i s = none)
    (he : effectOf s.pc i (s.setPc (s.pc + i.width)) = .ok t) : exec i s = .next t := by
  rw [exec_eq_execute, execute_of_ok (prepare_of_no_size h hr) he]

theorem exec_stop {s : State} (h : s.withinStackLimit) : exec .stop s = .next (s.setPc (s.pc + 1)).halt :=
  exec_of_no_size (checkOperands_of_within h (Nat.zero_le _) (Nat.le_refl _)) rfl rfl

theorem exec_unknown {s : State} (h : s.withinStackLimit) (t : Byte) :
    exec (.unknown t) s = .next ((s.setPc (s.pc + 1)).emit ((Instr.unknown t).record s.pc)) :=
  exec_of_no_size (checkOperands_of_within h (Nat.zero_le _) (Nat.le_refl _)) rfl rfl

/-- Settles O35: STOP's meaning runs in run mode only; the walk steps over it as over every instruction. -/
theorem stopHaltsRunModeOnly : Obligations.StopHaltsRunModeOnly := by
  refine ⟨rfl, fun s => exec_stop, fun s rest hlimit hrun hmode hdrop => ?_, fun s rest hrun hmode hdrop => ?_⟩
  · rw [runStepExecutesInstrAtPc s .stop rest hrun hmode rfl hdrop]
    exact exec_stop hlimit
  · exact debugStepEmitsRecordOfInstrAtPc.1 s .stop rest hrun hmode rfl hdrop

/-- Settles O36: run mode's meaning of UNKNOWN and the walk append the same record. -/
theorem unknownIsReportedNoOp : Obligations.UnknownIsReportedNoOp := by
  refine fun t => ⟨rfl, fun s hlimit => exec_unknown hlimit t, fun hwf s rest hrun hmode hdrop => ?_⟩
  exact debugStepEmitsRecordOfInstrAtPc.1 s (.unknown t) rest hrun hmode hwf hdrop

theorem checkOperands_of_overflow {i : Instr} {s : State} {n : Nat} (hn : s.params.stackLimit = some n)
    (hpops : pops i ≤ s.depth) (hlt : n < s.depth - pops i + pushes i) :
    checkOperands i s = some .stackOverflow := by
  rw [checkOperands, if_neg (Nat.not_lt_of_le hpops), if_pos (exceeds_eq_true.2 ⟨n, hn, hlt⟩)]

/-- Only a push leaves the stack deeper than it was (40_control.md R81). -/
theorem kind_mem_of_pops_lt_pushes {i : Instr} (h : pops i < pushes i) :
    i.kind ∈ [Kind.push1, .push2, .push32] := by
  cases i with
  | push1 | push2 | push32 => simp [Instr.kind]
  | stop | add | mul | mload | mstore | mstore8 | unknown => simp [pops, pushes] at h

/-- Settles O58: the check is that of every kind; within the limit it fails only where the stack would deepen. -/
theorem overflowCheckIsMadeForEveryKind : Obligations.OverflowCheckIsMadeForEveryKind := by
  intro s i n hn hpops hlt
  refine ⟨exec_of_check_some (checkOperands_of_overflow hn hpops hlt), fun hlimit => ?_⟩
  have hdepth := hlimit n hn
  exact kind_mem_of_pops_lt_pushes (by omega)

end Sys2Proof.Machine
end

section
/-!
PROOFS. Runs: every run ends, since a step that stays Running moves pc up inside the code (40_control.md R83); and a
debug run is the disassembly walk (R84).
-/
namespace Sys2Proof.Machine

/-! ### Every run ends -/

/-- In either mode a step that neither halts nor faults moves pc past the instruction there. -/
theorem step_stays_running {s t : State} (h : step s = .next t) (ht : t.runState = .running) :
    ∃ i, s.fetch = .op i (s.pc + i.width) ∧ t.pc = s.pc + i.width := by
  obtain ⟨-, hres⟩ := step_result h
  cases hres with
  | halts | raises | walkEnds => cases ht
  | completes i l m _ fetch => exact ⟨i, fetch, rfl⟩
  | walks i _ fetch => exact ⟨i, fetch, rfl⟩

/-- The code left to run shrinks with every step that stays Running. -/
theorem codeLen_sub_pc_decreases {s t : State} (h : step s = .next t) (ht : t.runState = .running) :
    t.codeLen - t.pc < s.codeLen - s.pc := by
  obtain ⟨i, hfetch, hpc⟩ := step_stays_running h ht
  have hlen : t.codeLen = s.codeLen := congrArg List.length (stepNeverGoesBack s t h).1
  have hinside : s.pc < s.codeLen := (fetchDecode_op hfetch).2.1
  have hwidth := (width_bounds i).1
  rw [hlen, hpc]
  omega

theorem core_run_succ {M : Host.Core} {s t : M.State} (h : M.step s = .next t) (k : Nat) :
    M.run (k + 1) s = M.run k t := by
  rw [Host.Core.run, h]

/-- The induction over a run, done once: it ends within the code left and one step more, and whatever the last step
establishes between the states around it, and every step before carries back, holds between its first and last state. -/
theorem run_ends_with {P : State → State → Prop}
    (last : ∀ s t, step s = .next t → t.ended → P s t)
    (carry : ∀ s u t, step s = .next u → u.runState = .running → P u t → P s t)
    (s : State) (hrun : s.runState = .running) :
    ∃ k ≤ s.codeLen - s.pc + 1, ∃ t : State, Sys2Proof.core.run k s = .next t ∧ t.ended ∧ P s t := by
  obtain ⟨u, hstep⟩ := runningBlockAlwaysHasNextState.2 s hrun
  by_cases hu : u.runState = .running
  · have hless := codeLen_sub_pc_decreases hstep hu
    obtain ⟨k, hk, t, hrunk, hended, hP⟩ := run_ends_with last carry u hu
    exact ⟨k + 1, by omega, t, (core_run_succ hstep k).trans hrunk, hended, carry s u t hstep hu hP⟩
  · exact ⟨1, Nat.le_add_left 1 _, u, core_run_succ hstep 0, hu, last s u hstep hu⟩
termination_by s.codeLen - s.pc

theorem run_ends (s : State) (hrun : s.runState = .running) :
    ∃ k ≤ s.codeLen - s.pc + 1, ∃ t : State, Sys2Proof.core.run k s = .next t ∧ t.ended := by
  obtain ⟨k, hk, t, hrunk, hended, -⟩ :=
    run_ends_with (P := fun _ _ => True) (fun _ _ _ _ => trivial) (fun _ _ _ _ _ _ => trivial) s hrun
  exact ⟨k, hk, t, hrunk, hended⟩

/-- Settles O53: by induction on the code left to run. -/
theorem everyRunEndsWithinCodeLenPlusOneSteps : Obligations.EveryRunEndsWithinCodeLenPlusOneSteps := by
  refine ⟨fun s t _ hstep ht => ?_, fun s hrun hmode hpc => ?_, fun _ _ _ => rfl, run_ends,
    fun bytes mode params => run_ends (State.resetWith bytes mode params) rfl⟩
  · obtain ⟨i, hfetch, hpc⟩ := step_stays_running hstep ht
    exact ⟨i, _, hfetch, hpc, (width_bounds i).1⟩
  · exact ⟨s.halt, runStepHaltsAtEndOfCode.1 s hrun hmode hpc, rfl⟩

/-! ### A debug run is the walk -/

section
variable {policy : OobImmPolicy} {code : List Byte} {pc : Nat} (fuel : Nat)

theorem walk_of_end (h : fetchDecode policy code pc = .endOfCode) :
    walk policy code (fuel + 1) pc = [OpRecord.endOfCode.event] := by
  rw [walk, h]

theorem walk_of_outOfBounds {tag : Byte} (h : fetchDecode policy code pc = .outOfBounds tag) :
    walk policy code (fuel + 1) pc = [] := by
  rw [walk, h]

theorem walk_of_op {i : Instr} {n : Nat} (h : fetchDecode policy code pc = .op i n) :
    walk policy code (fuel + 1) pc = (i.record pc).event :: walk policy code fuel n := by
  rw [walk, h]

end

/-- What a debug run that starts in `s` leaves in its last state `t`. `events` allows more decodes than the code left
needs: an instruction wider than one byte shortens the code left by more than the one decode it takes. -/
structure State.WalkedTo (s t : State) : Prop where
  events : ∀ fuel, s.codeLen - s.pc ≤ fuel →
    t.events = s.events ++ walk s.params.oobImmPolicy s.code (fuel + 1) s.pc
  stack : t.stack = s.stack
  mem : t.mem = s.mem
  normal : s.params.oobImmPolicy ≠ .fault → t.endedNormally

theorem walkedTo_of_last_step {s t : State} (hmode : s.mode = .debug) (h : step s = .next t) (ht : t.ended) :
    s.WalkedTo t := by
  obtain ⟨hrun, -⟩ := step_next h
  obtain ⟨hfetch, rfl⟩ | ⟨tag, hfetch, rfl⟩ | ⟨i, n, -, rfl⟩ := debug_step_next hmode h
  · exact ⟨fun fuel _ => by rw [walk_of_end fuel hfetch]; rfl, rfl, rfl, fun _ => rfl⟩
  · exact ⟨fun fuel _ => by rw [walk_of_outOfBounds fuel hfetch, List.append_nil]; rfl, rfl, rfl,
      fun hpolicy => absurd (policy_of_fetchDecode_outOfBounds hfetch) hpolicy⟩
  · exact absurd hrun ht

theorem walkedTo_of_step {s u t : State} (hmode : s.mode = .debug) (h : step s = .next u)
    (hu : u.runState = .running) (hwalk : u.WalkedTo t) : s.WalkedTo t := by
  have hless := codeLen_sub_pc_decreases h hu
  obtain ⟨-, rfl⟩ | ⟨tag, -, rfl⟩ | ⟨i, n, hfetch, rfl⟩ := debug_step_next hmode h
  · cases hu
  · cases hu
  · refine ⟨fun fuel hfuel => ?_, hwalk.stack, hwalk.mem, hwalk.normal⟩
    obtain ⟨fuel, rfl⟩ : ∃ f, fuel = f + 1 := ⟨fuel - 1, by omega⟩
    rw [hwalk.events fuel (by omega), walk_of_op (fuel + 1) hfetch, List.append_cons]
    rfl

/-- Settles O54: each step before the last puts its record in front of the walk from the next pc. -/
theorem debugRunIsTheWalk : Obligations.DebugRunIsTheWalk := by
  intro s hrun hmode
  obtain ⟨k, hk, t, hrunk, hended, hwalk⟩ := run_ends_with (P := fun s t => s.mode = .debug → s.WalkedTo t)
    (fun s t hstep ht hmode => walkedTo_of_last_step hmode hstep ht)
    (fun s u t hstep hu ih hmode =>
      walkedTo_of_step hmode hstep hu (ih ((stepNeverGoesBack s u hstep).2.1.trans hmode))) s hrun
  obtain ⟨hevents, hstack, hmem, hnormal⟩ := hwalk hmode
  exact ⟨k, t, hk, hrunk, hended, hevents _ (Nat.le_refl _), hstack, hmem, hnormal⟩

end Sys2Proof.Machine
end

section
/-!
PROOFS. The ALU on natural numbers (41_alu.md R91, R92), and its two instructions by one equation (R93, R94).
-/
namespace Sys2Proof.Machine

/-! ### The ALU -/

theorem aluAdd_toNat (a b : Word) : (aluAdd a b).toNat = (a.toNat + b.toNat) % 2 ^ 256 := BitVec.toNat_ofNat _ _

theorem aluMul_toNat (a b : Word) : (aluMul a b).toNat = (a.toNat * b.toNat) % 2 ^ 256 := BitVec.toNat_ofNat _ _

theorem aluAdd_comm (a b : Word) : aluAdd a b = aluAdd b a := by
  rw [aluAdd, aluAdd, Nat.add_comm]

theorem aluMul_comm (a b : Word) : aluMul a b = aluMul b a := by
  rw [aluMul, aluMul, Nat.mul_comm]

theorem aluMul_zero (a : Word) : aluMul a 0 = 0 := by
  rw [aluMul, BitVec.ofNat_eq_ofNat, BitVec.toNat_zero, Nat.mul_zero]

/-- Settles O19: a word of a natural number is that number modulo 2^256. -/
theorem aluResultsAreModulo : Obligations.AluResultsAreModulo :=
  fun a b => ⟨aluAdd_toNat a b, aluMul_toNat a b⟩

/-- Settles O20: the laws come from those of natural numbers; the edges on fixed words are computed. -/
theorem aluCommutesAndWraps : Obligations.AluCommutesAndWraps :=
  ⟨fun a b => ⟨aluAdd_comm a b, aluMul_comm a b⟩, by decide, aluMul_zero, by decide, by decide⟩

/-! ### ADD and MUL -/

/-- Within STACK_LIMIT an ALU instruction with two operands completes: it pops more than it pushes, so the overflow
check passes, and it needs no memory. -/
theorem exec_alu {i : Instr} {f : Word → Word → Word} (hi : (i = .add ∧ f = aluAdd) ∨ (i = .mul ∧ f = aluMul))
    {s : State} {a b : Word} {rest : List Word} (hs : s.stack = a :: b :: rest) (hw : s.withinStackLimit) :
    exec i s = .next { s with pc := s.pc + 1, stack := f a b :: rest } := by
  have hdepth : 2 ≤ s.depth := two_le_depth_iff.2 ⟨a, b, rest, hs⟩
  obtain ⟨rfl, rfl⟩ | ⟨rfl, rfl⟩ := hi
  · exact exec_of_no_size (checkOperands_of_within hw hdepth (Nat.le_succ 1)) rfl (aluEffect_of_stack hs)
  · exact exec_of_no_size (checkOperands_of_within hw hdepth (Nat.le_succ 1)) rfl (aluEffect_of_stack hs)

/-- Settles O21: the effect on two operands, and the underflow check below them. -/
theorem addReplacesTopTwoBySum : Obligations.AddReplacesTopTwoBySum :=
  ⟨rfl, fun _ a b _ hs hw => ⟨aluAdd a b, aluAdd_toNat a b, exec_alu (.inl ⟨rfl, rfl⟩) hs hw⟩,
    fun _ hd => exec_of_underflow hd⟩

/-- Settles O22: the effect on two operands, and the underflow check below them. -/
theorem mulReplacesTopTwoByProduct : Obligations.MulReplacesTopTwoByProduct :=
  ⟨rfl, fun _ a b _ hs hw => ⟨aluMul a b, aluMul_toNat a b, exec_alu (.inr ⟨rfl, rfl⟩) hs hw⟩,
    fun _ hd => exec_of_underflow hd⟩

end Sys2Proof.Machine
end

section
/-!
PROOFS. MLOAD and MSTORE in full (42_memory_ops.md R97, R98), and the frame the three memory instructions share: each
leaves the grown memory with the bytes it stores at the offset.
-/
namespace Sys2Proof.Machine

/-! ### Bytes read after Grow, and bytes a store leaves alone -/

theorem grow_byte_of_lt (m : Memory) {n x : Nat} (h : x < n) : (m.grow n).byte? x = some ((m.byte? x).getD 0x00) := by
  rw [grow_byte]
  by_cases hold : x < m.size
  · simp [hold, Memory.byte?]
  · simp [hold, h, Memory.byte?, unlistedByte]

/-- Byte k of the word MLOAD reads at `a`: the byte at a + k, or 0x00 where none was. -/
theorem wordByte_load_grow (m : Memory) (a : Nat) {k : Nat} (hk : k < 32) :
    wordByte (beToWord ((m.grow (a + 32)).getBytes a 32)) k = (m.byte? (a + k)).getD 0x00 := by
  have hread := readWord?_eq_some (m.grow (a + 32)) a (by simp [grow_size])
  have hbyte := readWord?_byte _ a _ hread k hk
  rw [grow_byte_of_lt m (Nat.add_lt_add_left hk a)] at hbyte
  exact (Option.some.inj hbyte).symm

/-- Outside the bytes stored, memory that was grown reads as before, or 0x00 where it is new. -/
theorem setBytes_grow_byte_outside (m : Memory) (n a : Nat) (bs : List Byte) {x : Nat}
    (h : x < a ∨ a + bs.length ≤ x) :
    ((m.grow n).setBytes a bs).byte? x =
      if x < m.size then m.byte? x
      else if x < ((m.grow n).setBytes a bs).size then some 0x00 else none := by
  have hkept : ((m.grow n).setBytes a bs).byte? x = (m.grow n).byte? x := by
    rw [Memory.byte?, setBytes_size, setBytes_get, if_neg (c := a ≤ x ∧ x < a + bs.length) (by omega), Memory.byte?]
  rw [hkept, grow_byte, setBytes_size, grow_size]
  by_cases hold : x < m.size
  · rw [if_pos hold, if_pos hold]
  · simp [hold, unlistedByte]

theorem setBytes_wordToBe32_byte (m : Memory) (a : Nat) (v : Word) (h : a + 32 ≤ m.size) {k : Nat} (hk : k < 32) :
    (m.setBytes a (wordToBe32 v)).byte? (a + k) = some (wordByte v k) := by
  rw [setBytes_byte m a _ (by simpa using h), if_pos (by simpa using hk), Nat.add_sub_cancel_left,
    List.getD_eq_getElem?_getD, wordToBe32_getElem? v k hk, Option.getD_some]

/-! ### MLOAD and MSTORE -/

/-- Settles O24: the word is read from memory grown before the effect; the checks raise before. -/
theorem mloadPushesBigEndianWord : Obligations.MloadPushesBigEndianWord := by
  refine ⟨rfl, fun s offset rest hs hw hf => ?_, fun s hd => exec_of_underflow (Nat.lt_one_iff.2 hd), ?_⟩
  · exact ⟨_, _, fun k hk => wordByte_load_grow s.mem offset.toNat hk, grow_size s.mem _,
      fun a => setBytes_grow_byte_outside s.mem _ a [] (.inr (Nat.le_refl a)), exec_mload hs hw hf⟩
  · intro s offset rest l hs hw hl hlt
    exact exec_of_too_large (checkOperands_of_within hw (one_le_depth_iff.2 ⟨_, _, hs⟩) (Nat.le_refl 1))
      (requiredSize_mload hs) hl hlt

/-- Settles O25: grow, then store the word's 32 bytes at the offset; the checks raise before. -/
theorem mstoreWritesBigEndianWord : Obligations.MstoreWritesBigEndianWord := by
  refine ⟨rfl, fun s offset value rest hs hw hf => ?_, fun s hd => exec_of_underflow hd, ?_⟩
  · refine ⟨_, by rw [setBytes_size, grow_size], fun k hk => ?_, fun a ha => ?_, exec_mstore hs hw hf⟩
    · exact setBytes_wordToBe32_byte _ _ value (by simp [grow_size]) hk
    · exact setBytes_grow_byte_outside s.mem _ _ _ (by simpa using ha)
  · intro s offset value rest l hs hw hl hlt
    exact exec_of_too_large (checkOperands_of_within hw (two_le_depth_iff.2 ⟨_, _, _, hs⟩) (Nat.zero_le 2))
      (requiredSize_mstore hs) hl hlt

/-! ### The frame -/

section
variable {i : Instr} {s t : State} (h : exec i s = .next t) (hok : t.runState ≠ .faulted)
include h hok

/-- A completed memory access is its effect on the state with memory grown to the required size. -/
theorem effectOf_grown {r : Nat} (hr : requiredSize i s = some r) :
    effectOf s.pc i ((s.setMem (s.mem.grow r)).setPc (s.pc + i.width)) = .ok t := by
  obtain ⟨p, hp, he⟩ := exec_completed h hok
  obtain ⟨-, ⟨hnone, -⟩ | ⟨r', hr', -, rfl⟩⟩ := prepare_ok hp
  · cases hr.symm.trans hnone
  · cases hr.symm.trans hr'
    exact he

/-- The memory a completed access leaves: grown, with the bytes it stores at the offset, MLOAD none, MSTORE 32 and
MSTORE8 one. -/
theorem exec_mem_of_access (hi : AccessesMemory i) :
    ∃ offset n bs, s.peek? = some offset ∧ t.mem = (s.mem.grow n).setBytes offset.toNat bs ∧
      ((i = .mload ∧ bs.length = 0) ∨ (i = .mstore ∧ bs.length = 32) ∨ (i = .mstore8 ∧ bs.length = 1)) := by
  have hpops := exec_pops_le_depth h hok
  obtain rfl | rfl | rfl := hi
  · obtain ⟨offset, rest, hs⟩ := one_le_depth_iff.1 hpops
    cases (effectOf_grown h hok (requiredSize_mload hs)).symm.trans
      (mloadEffect_of_stack hs (by simp [grow_size]))
    exact ⟨offset, _, [], by rw [State.peek?, hs]; rfl, rfl, .inl ⟨rfl, rfl⟩⟩
  · obtain ⟨offset, value, rest, hs⟩ := two_le_depth_iff.1 hpops
    cases (effectOf_grown h hok (requiredSize_mstore hs)).symm.trans
      (mstoreEffect_of_stack hs (by simp [grow_size]))
    exact ⟨offset, _, _, by rw [State.peek?, hs]; rfl, rfl, .inr (.inl ⟨rfl, wordToBe32_length value⟩)⟩
  · obtain ⟨offset, value, rest, hs⟩ := two_le_depth_iff.1 hpops
    cases (effectOf_grown h hok (requiredSize_mstore8 hs)).symm.trans
      (mstore8Effect_of_stack hs (by simp [grow_size]))
    exact ⟨offset, _, _, by rw [State.peek?, hs]; rfl, rfl, .inr (.inr ⟨rfl, rfl⟩)⟩

end

/-- Settles O45: the next state is `State.finish` of the advanced state, and its memory is the grown one with the bytes
stored. -/
theorem frameOfMemoryInstructions : Obligations.FrameOfMemoryInstructions := by
  intro s t i hi _ h hok
  have hdrop := exec_stack_drop h hok
  obtain ⟨offset, n, bs, hpeek, hmem, hlen⟩ := exec_mem_of_access h hok hi
  have hbytes (offset' : Word) (a : Nat) (hpeek' : s.peek? = some offset')
      (hout : i = .mload ∨ (i = .mstore ∧ (a < offset'.toNat ∨ offset'.toNat + 32 ≤ a)) ∨
        (i = .mstore8 ∧ a ≠ offset'.toNat)) :
      t.mem.byte? a = if a < s.mem.size then s.mem.byte? a else if a < t.mem.size then some 0x00 else none := by
    cases hpeek.symm.trans hpeek'
    rw [hmem]
    refine setBytes_grow_byte_outside s.mem n offset.toNat bs ?_
    obtain ⟨rfl, hbs⟩ | ⟨rfl, hbs⟩ | ⟨rfl, hbs⟩ := hlen
    · omega
    · simpa [hbs] using hout
    · have hne : a ≠ offset.toNat := by simpa using hout
      omega
  rcases exec_next h with ⟨c, rfl⟩ | ⟨l, m, -, -, rfl⟩
  · exact absurd rfl hok
  · have hstop : i ≠ .stop := by rintro rfl; simp at hi
    have hunknown (tag : Byte) : i ≠ .unknown tag := by rintro rfl; simp at hi
    refine ⟨rfl, rfl, rfl, rfl, rfl, rfl, ?_, ?_, hdrop, hbytes⟩
    · rw [State.finish_runState, if_neg hstop, State.setPc_runState]
    · rw [State.finish_events, reportOf_eq_nil hunknown, List.append_nil, State.setPc_events]

end Sys2Proof.Machine
end

section
/-!
PROOFS. The three pushes by one equation each for completing and for the stack at its limit (43_push.md R100 to R103,
60_exceptions.md R109).
-/
namespace Sys2Proof.Machine

section
variable {i : Instr} (hi : i.kind ∈ [Kind.push1, .push2, .push32])
include hi

theorem pops_and_pushes_of_push : pops i = 0 ∧ pushes i = 1 := by
  cases i with
  | push1 | push2 | push32 => exact ⟨rfl, rfl⟩
  | stop | add | mul | mload | mstore | mstore8 | unknown => simp [Instr.kind] at hi

/-- The one effect of the pushes (43_push.md R100). -/
theorem effectOf_push (addr : Nat) (p : State) : effectOf addr i p = .ok (p.push i.imm) := by
  cases i with
  | push1 | push2 | push32 => rfl
  | stop | add | mul | mload | mstore | mstore8 | unknown => simp [Instr.kind] at hi

theorem requiredSize_push (s : State) : requiredSize i s = none :=
  requiredSize_eq_none (by rintro (rfl | rfl | rfl) <;> simp [Instr.kind] at hi) s

/-- With room for one word more a push completes. -/
theorem exec_push {s : State} (hroom : ∀ n, s.params.stackLimit = some n → s.depth < n) :
    exec i s = .next { s with pc := s.pc + i.width, stack := i.imm :: s.stack } := by
  obtain ⟨hpops, hpushes⟩ := pops_and_pushes_of_push hi
  have hcheck : checkOperands i s = none := checkOperands_eq_none.2
    ⟨hpops ▸ Nat.zero_le _, fun n hn => by rw [hpops, hpushes]; exact hroom n hn⟩
  exact exec_of_no_size hcheck (requiredSize_push hi s) (effectOf_push hi _ _)

/-- At the limit, or beyond it, a push raises StackOverflow (60_exceptions.md R109). -/
theorem exec_push_of_full {s : State} {n : Nat} (hn : s.params.stackLimit = some n) (hfull : n ≤ s.depth) :
    exec i s = .next (s.raise .stackOverflow s.pc i.opcode) := by
  obtain ⟨hpops, hpushes⟩ := pops_and_pushes_of_push hi
  exact exec_of_check_some (checkOperands_of_overflow hn (by omega) (by omega))

end

/-- Settles O32: the shared equations of the pushes at width 2. -/
theorem push1PushesOneByte : Obligations.Push1PushesOneByte := by
  intro s imm
  have hi : (Instr.push1 imm).kind ∈ [Kind.push1, .push2, .push32] := by simp [Instr.kind]
  exact ⟨fun hroom => ⟨_, BitVec.toNat_setWidth_of_le (by decide), exec_push hi hroom⟩, fun _ => exec_push_of_full hi⟩

/-- Settles O33: the shared equations of the pushes at width 3. -/
theorem push2PushesTwoBytes : Obligations.Push2PushesTwoBytes := by
  intro s imm
  have hi : (Instr.push2 imm).kind ∈ [Kind.push1, .push2, .push32] := by simp [Instr.kind]
  exact ⟨fun hroom => ⟨_, BitVec.toNat_setWidth_of_le (by decide), exec_push hi hroom⟩, fun _ => exec_push_of_full hi⟩

/-- Settles O34: the shared equations of the pushes at width 33; the immediate is the whole word. -/
theorem push32PushesWholeWord : Obligations.Push32PushesWholeWord := by
  intro s imm
  have hi : (Instr.push32 imm).kind ∈ [Kind.push1, .push2, .push32] := by simp [Instr.kind]
  exact ⟨exec_push hi, fun _ => exec_push_of_full hi⟩

end Sys2Proof.Machine
end

section
/-!
PROOFS. The faults of the run-mode meanings and of the step (60_exceptions.md R106 to R110, R113 to R115): which cause a
meaning raises, and when, said once; the statement of each cause is a reading of it.
-/
namespace Sys2Proof.Machine

/-! ### The cause a meaning raises -/

/-- When the run-mode meaning of `i` raises a cause from `s`, in the order of 60_exceptions.md R113. -/
inductive Raises (i : Instr) (s : State) : Cause → Prop
  /-- Too few operands (R106). -/
  | underflow (short : s.depth < pops i) : Raises i s .stackUnderflow
  /-- The stack would be too deep (R109). -/
  | overflow (n : Nat) (limit : s.params.stackLimit = some n) (operands : pops i ≤ s.depth)
      (deep : n < s.depth - pops i + pushes i) : Raises i s .stackOverflow
  /-- The required size is too large (R108). -/
  | tooLarge (r l : Nat) (check : checkOperands i s = none) (size : requiredSize i s = some r)
      (limit : s.params.memLimit = some l) (large : l < r) : Raises i s .memoryLimit

theorem exec_of_raises {i : Instr} {s : State} {c : Cause} (h : Raises i s c) :
    exec i s = .next (s.raise c s.pc i.opcode) := by
  cases h with
  | underflow short => exact exec_of_underflow short
  | overflow n limit operands deep => exact exec_of_check_some (checkOperands_of_overflow limit operands deep)
  | tooLarge r l check size limit large => exact exec_of_too_large check size limit large

theorem raises_of_prepare_error {i : Instr} {s : State} {e : Abort} (h : prepare i s = .error e) :
    ∃ c, e = .raised c ∧ Raises i s c := by
  obtain ⟨c, hc, rfl⟩ | ⟨hc, r, l, hr, hl, hlt, rfl⟩ := prepare_error h
  · obtain ⟨rfl, hshort⟩ | ⟨rfl, hpops, n, hn, hdeep⟩ := checkOperands_cause hc
    · exact ⟨_, rfl, .underflow hshort⟩
    · exact ⟨_, rfl, .overflow n hn hpops hdeep⟩
  · exact ⟨_, rfl, .tooLarge r l hc hr hl hlt⟩

/-- After the checks no effect raises: it finds its operands and its memory. -/
theorem effectOf_prepared {i : Instr} {s p : State} (h : prepare i s = .ok p) : ∃ t, effectOf s.pc i p = .ok t := by
  obtain ⟨hstack, hpops, hsize⟩ := prepare_operands h
  refine effectOf_completes (by rwa [State.depth, hstack]) fun r hr => ?_
  rw [requiredSize_congr hstack] at hr
  simp [hsize, hr]

/-- From a Running state a meaning faults only by raising a cause. -/
theorem exec_faulted {i : Instr} {s t : State} (hrun : s.runState = .running) (h : exec i s = .next t)
    (ht : t.runState = .faulted) : ∃ c, Raises i s c ∧ t = s.raise c s.pc i.opcode := by
  cases hp : prepare i s with
  | error e =>
    obtain ⟨c, -, hraises⟩ := raises_of_prepare_error hp
    cases (exec_of_raises hraises).symm.trans h
    exact ⟨c, hraises, rfl⟩
  | ok p =>
    obtain ⟨u, hu⟩ := effectOf_prepared hp
    cases (execute_of_ok hp hu).symm.trans (exec_eq_execute i s ▸ h)
    obtain ⟨m, -, rfl⟩ := prepare_mayGrow hp
    obtain ⟨l, m', -, -, -, rfl⟩ := effectOf_ok hu
    exact absurd ht (finish_not_faulted hrun)

theorem cause_eq_of_code_eq {c d : Cause} (h : c.code = d.code) : c = d := by
  cases c <;> cases d <;> simp [Cause.code] at h ⊢

/-- The cause a faulted meaning reports is the one it raised. -/
theorem raises_of_faultCause {i : Instr} {s t : State} {c : Cause} (hrun : s.runState = .running)
    (h : exec i s = .next t) (ht : t.runState = .faulted) (hcause : t.faultCause = c.code) : Raises i s c := by
  obtain ⟨d, hraises, rfl⟩ := exec_faulted hrun h ht
  exact cause_eq_of_code_eq hcause ▸ hraises

/-! ### StackUnderflow, MemoryLimit and StackOverflow -/

/-- Settles O37: an instruction that pops one or two words from a shorter stack is one of the five popping kinds. -/
theorem stackUnderflowExactlyOnTooFewOperands : Obligations.StackUnderflowExactlyOnTooFewOperands := by
  refine ⟨fun s => ⟨fun hd i hi => ?_, fun hd => exec_of_underflow hd⟩, fun s t i hrun h ht hcause => ?_⟩
  · have hpops : pops i = 2 := by
      simp only [List.mem_cons, List.not_mem_nil, or_false] at hi
      rcases hi with rfl | rfl | rfl | rfl <;> rfl
    exact exec_of_underflow (hpops ▸ hd)
  · cases raises_of_faultCause (c := .stackUnderflow) hrun h ht hcause with
    | underflow short =>
      cases i with
      | add | mul | mstore | mstore8 => exact .inl ⟨by simp, short⟩
      | mload => exact .inr ⟨rfl, short⟩
      | stop | push1 | push2 | push32 | unknown => exact absurd short (Nat.not_lt_zero _)

/-- The required size, read off the top of the stack (20_memory.md R49). -/
theorem requiredSize_eq_some {i : Instr} {s : State} {r : Nat} :
    requiredSize i s = some r ↔ ∃ offset, s.stack.head? = some offset ∧
      (((i = .mload ∨ i = .mstore) ∧ offset.toNat + 32 = r) ∨ (i = .mstore8 ∧ offset.toNat + 1 = r)) := by
  cases i <;> simp [requiredSize, State.peek?]

/-- Settles O39: the operand checks of the three kinds pass, and only they have a required size. -/
theorem memoryLimitExactlyOnTooLargeAccess : Obligations.MemoryLimitExactlyOnTooLargeAccess := by
  constructor
  · intro s i offset l hlimit hl hhead hlarge
    have hdepth : 1 ≤ s.depth := List.length_pos_iff.2 fun hnil => by simp [hnil] at hhead
    obtain ⟨rfl, hlt⟩ | ⟨rfl, h2, hlt⟩ | ⟨rfl, h2, hlt⟩ := hlarge
    · exact exec_of_raises (.tooLarge _ l (checkOperands_of_within (i := .mload) hlimit hdepth (Nat.le_refl 1))
        (requiredSize_eq_some.2 ⟨offset, hhead, .inl ⟨.inl rfl, rfl⟩⟩) hl hlt)
    · exact exec_of_raises (.tooLarge _ l (checkOperands_of_within (i := .mstore) hlimit h2 (Nat.zero_le 2))
        (requiredSize_eq_some.2 ⟨offset, hhead, .inl ⟨.inr rfl, rfl⟩⟩) hl hlt)
    · exact exec_of_raises (.tooLarge _ l (checkOperands_of_within (i := .mstore8) hlimit h2 (Nat.zero_le 2))
        (requiredSize_eq_some.2 ⟨offset, hhead, .inr ⟨rfl, rfl⟩⟩) hl hlt)
  · intro s t i hrun h ht hcause
    cases raises_of_faultCause (c := .memoryLimit) hrun h ht hcause with
    | tooLarge r l check size limit large =>
      obtain ⟨offset, hhead, ⟨hi, rfl⟩ | ⟨hi, rfl⟩⟩ := requiredSize_eq_some.1 size
      · exact ⟨offset, l, limit, hhead, .inl ⟨hi, large⟩⟩
      · exact ⟨offset, l, limit, hhead, .inr ⟨hi, large⟩⟩

/-- Settles O40: within the limit only a kind that pushes more than it pops can exceed it, so a push, by one word. -/
theorem stackOverflowOnlyByPushesAtTheLimit : Obligations.StackOverflowOnlyByPushesAtTheLimit := by
  refine ⟨fun s i n _ hn hpops hdeep => exec_of_raises (.overflow n hn hpops hdeep), ?_⟩
  intro s t i hlimit hrun h ht hcause
  cases raises_of_faultCause (c := .stackOverflow) hrun h ht hcause with
  | overflow n limit operands deep =>
    have hdepth := hlimit n limit
    have hkind : i.kind ∈ [Kind.push1, .push2, .push32] := kind_mem_of_pops_lt_pushes (by omega)
    obtain ⟨hpops, hpushes⟩ := pops_and_pushes_of_push hkind
    obtain rfl : n = s.depth := by omega
    exact ⟨hkind, limit⟩

/-! ### The order of the faults -/

theorem pushes_le_one (i : Instr) : pushes i ≤ 1 := by
  cases i with
  | add | mul | mload | push1 | push2 | push32 => exact Nat.le_refl 1
  | stop | mstore | mstore8 | unknown => exact Nat.zero_le 1

/-- Settles O41: the first condition that holds is the one raised; a stack too short for the pops is at most empty after
them and the one push. -/
theorem faultPriorityOrder : Obligations.FaultPriorityOrder := by
  refine ⟨fun s hrun _ tag hfetch => step_of_fetch_outOfBounds hrun hfetch, ?_, fun i depth n hshort => ?_⟩
  · intro s t i hrun h ht
    refine ⟨fun hshort => ?_, fun _ hpops ⟨n, hn, hdeep⟩ => ?_, fun hpops hroom => ?_⟩
    · cases (exec_of_raises (.underflow hshort)).symm.trans h
      rfl
    · cases (exec_of_raises (.overflow n hn hpops hdeep)).symm.trans h
      rfl
    · obtain ⟨c, hraises, rfl⟩ := exec_faulted hrun h ht
      cases hraises with
      | underflow short => exact absurd short (Nat.not_lt_of_le hpops)
      | overflow n limit _ deep => exact absurd deep (Nat.not_lt_of_le (hroom n limit))
      | tooLarge => rfl
  · have := pushes_le_one i
    omega

/-! ### OutOfBoundsImmediate, and the faults of a step -/

theorem getElem?_of_drop_eq_cons {code avail : List Byte} {pc : Nat} {t : Byte} (h : code.drop pc = t :: avail) :
    code[pc]? = some t := by
  rw [← List.head?_drop, h, List.head?_cons]

/-- Fetch-decode raises OutOfBoundsImmediate exactly on a short immediate under the policy Fault (30_encoding.md R74). -/
theorem fetchDecode_eq_outOfBounds {policy : OobImmPolicy} {code : List Byte} {pc : Nat} {tag : Byte} :
    fetchDecode policy code pc = .outOfBounds tag ↔
      policy = .fault ∧ ∃ avail, code.drop pc = tag :: avail ∧ avail.length < immLength tag := by
  constructor
  · intro h
    obtain rfl := policy_of_fetchDecode_outOfBounds h
    refine ⟨rfl, ?_⟩
    obtain ⟨-, hf⟩ | ⟨t, avail, hdrop, hshort, hf⟩ | ⟨t, rest, -, -, -, hf⟩ := fetchDecode_cases .fault code pc
    · cases hf.symm.trans h
    · cases hf.symm.trans h
      exact ⟨avail, hdrop, hshort⟩
    · cases hf.symm.trans h
  · rintro ⟨rfl, avail, hdrop, hshort⟩
    exact fetchDecode_of_short hdrop hshort .fault

/-- The instruction fetched has the byte at pc as its opcode. -/
theorem opcode_of_fetchDecode_op {policy : OobImmPolicy} {code : List Byte} {pc : Nat} {i : Instr} {n : Nat}
    (h : fetchDecode policy code pc = .op i n) : code[pc]? = some i.opcode := by
  obtain ⟨-, hf⟩ | ⟨t, avail, hdrop, -, hf⟩ | ⟨t, rest, hdrop, -, -, hf⟩ := fetchDecode_cases policy code pc
  · cases hf.symm.trans h
  · cases policy with
    | fault | endRun => cases hf.symm.trans h
    | zeroPad =>
      cases hf.symm.trans h
      rw [(instrOf_opcode t _).1, getElem?_of_drop_eq_cons hdrop]
  · cases hf.symm.trans h
    rw [(instrOf_opcode t _).1, getElem?_of_drop_eq_cons hdrop]

/-- A step faults at decode, in either mode, or by a cause the run-mode meaning of the fetched instruction raises. -/
theorem step_faulted {s t : State} (h : step s = .next t) (ht : t.runState = .faulted) :
    (∃ tag, s.fetch = .outOfBounds tag ∧ t = s.raise .outOfBoundsImmediate s.pc tag) ∨
      ∃ i n c, s.fetch = .op i n ∧ Raises i s c ∧ t = s.raise c s.pc i.opcode := by
  obtain ⟨hrun, hcases⟩ := step_next h
  obtain ⟨-, -, rfl⟩ | ⟨-, -, -, rfl⟩ | ⟨tag, -, hfetch, rfl⟩ | ⟨i, -, -, hfetch, hexec⟩ | ⟨-, -, rfl⟩ |
    ⟨i, -, -, rfl⟩ := hcases
  · cases ht
  · cases ht
  · exact .inl ⟨tag, hfetch, rfl⟩
  · obtain ⟨c, hraises, rfl⟩ := exec_faulted hrun hexec ht
    exact .inr ⟨i, _, c, hfetch, hraises, rfl⟩
  · cases ht
  · cases hrun.symm.trans ht

/-- No meaning raises OutOfBoundsImmediate, so a step that reports it faulted at decode. -/
theorem fetch_of_step_outOfBounds {s t : State} (h : step s = .next t) (ht : t.runState = .faulted)
    (hcause : t.faultCause = 2) : ∃ tag, s.fetch = .outOfBounds tag ∧ t = s.raise .outOfBoundsImmediate s.pc tag := by
  obtain hdecode | ⟨i, n, c, -, hraises, rfl⟩ := step_faulted h ht
  · exact hdecode
  · obtain rfl : c = .outOfBoundsImmediate := cause_eq_of_code_eq hcause
    cases hraises

/-- A byte that announces more immediate bytes than some number is a push's (30_encoding.md R65). -/
theorem push_of_lt_immLength {t : Byte} {k : Nat} (h : k < immLength t) :
    (t = 0x60 ∧ immLength t = 1) ∨ (t = 0x61 ∧ immLength t = 2) ∨ (t = 0x7f ∧ immLength t = 32) := by
  obtain hzero | rfl | rfl | rfl := immLength_cases t
  · omega
  · exact .inl ⟨rfl, rfl⟩
  · exact .inr (.inl ⟨rfl, rfl⟩)
  · exact .inr (.inr ⟨rfl, rfl⟩)

/-- Settles O38: the cause is raised by fetch-decode alone, exactly on a short immediate under Fault. -/
theorem outOfBoundsImmediateExactlyOnTruncatedPush : Obligations.OutOfBoundsImmediateExactlyOnTruncatedPush := by
  intro s hrun
  refine ⟨⟨?_, ?_⟩, fun t h ht hcause => ?_⟩
  · rintro ⟨t, h, ht, hcause⟩
    obtain ⟨tag, hfetch, -⟩ := fetch_of_step_outOfBounds h ht hcause
    obtain ⟨hpolicy, avail, hdrop, hshort⟩ := fetchDecode_eq_outOfBounds.1 hfetch
    exact ⟨hpolicy, tag, immLength tag, avail, hdrop, hshort, push_of_lt_immLength hshort⟩
  · rintro ⟨hpolicy, tag, n, avail, hdrop, hshort, hpush⟩
    obtain rfl := immLength_of_push hpush
    have hfetch : s.fetch = .outOfBounds tag := fetchDecode_eq_outOfBounds.2 ⟨hpolicy, avail, hdrop, hshort⟩
    exact ⟨_, step_of_fetch_outOfBounds hrun hfetch, rfl, rfl⟩
  · obtain ⟨tag, hfetch, rfl⟩ := fetch_of_step_outOfBounds h ht hcause
    obtain ⟨-, avail, hdrop, -⟩ := fetchDecode_eq_outOfBounds.1 hfetch
    exact ⟨rfl, getElem?_of_drop_eq_cons hdrop⟩

/-! ### The fault entry -/

/-- Settles O42: both ways to fault are `State.raise` on the state before the step, with the byte at pc; and no step is
taken from a Faulted state. -/
theorem faultEntryIsPrecise : Obligations.FaultEntryIsPrecise := by
  intro s t h ht
  refine ⟨?_, fun u hu => ?_⟩
  · obtain ⟨tag, hfetch, rfl⟩ | ⟨i, n, c, hfetch, -, rfl⟩ := step_faulted h ht
    · obtain ⟨-, avail, hdrop, -⟩ := fetchDecode_eq_outOfBounds.1 hfetch
      exact ⟨.outOfBoundsImmediate, tag, getElem?_of_drop_eq_cons hdrop, rfl⟩
    · exact ⟨c, i.opcode, opcode_of_fetchDecode_op hfetch, rfl⟩
  · cases ht.symm.trans (step_next hu).1

/-- Settles O43: of all a step can answer only the fault entry writes FAULT_CAUSE, with a cause's code. -/
theorem faultCauseCodes : Obligations.FaultCauseCodes := by
  refine ⟨rfl, rfl, rfl, rfl, rfl, fun s t h => ?_⟩
  obtain ⟨-, hres⟩ := step_result h
  cases hres with
  | raises c tag => exact .inr (cause_code_bounds c)
  | halts | completes | walkEnds | walks => exact .inl rfl

end Sys2Proof.Machine
end

section
/-!
PROOFS. The host's Hex Decoder (70_reset_and_hazards.md R127, log 15): the texts it accepts and the bytes they spell, by
recursion over the pairs.
-/
namespace Sys2Proof.Machine

/-! ### Digits and pairs of digits -/

theorem hexDigit?_lt {c : Char} {x : Nat} (h : hexDigit? c = some x) : x < 16 := by
  simp only [hexDigit?] at h
  split_ifs at h <;> cases h <;> omega

theorem hexDigit?_hexChar : ∀ n < 16, hexDigit? (hexChar n) = some n := by decide

/-- The characters `c` and `d` are the two digits of `b`, the more significant first. -/
def PairSpells (c d : Char) (b : Byte) : Prop :=
  ∃ x y, hexDigit? c = some x ∧ hexDigit? d = some y ∧ b.toNat = 16 * x + y

theorem pairSpells_iff {c d : Char} {x y : Nat} (hc : hexDigit? c = some x) (hd : hexDigit? d = some y) (b : Byte) :
    PairSpells c d b ↔ b = BitVec.ofNat 8 (16 * x + y) := by
  have hx := hexDigit?_lt hc
  have hy := hexDigit?_lt hd
  rw [← BitVec.toNat_inj, BitVec.toNat_ofNat, Nat.mod_eq_of_lt (by omega)]
  simp [PairSpells, hc, hd]

theorem pairSpells_hexChar (b : Byte) : PairSpells (hexChar (b.toNat / 16)) (hexChar (b.toNat % 16)) b := by
  have hb : b.toNat < 256 := b.isLt
  exact ⟨_, _, hexDigit?_hexChar _ (by omega), hexDigit?_hexChar _ (by omega), by omega⟩

/-! ### Texts -/

/-- The text is a pair of digits for each byte, in order. -/
def Spells : List Char → List Byte → Prop
  | [], bs => bs = []
  | [_], _ => False
  | _ :: _ :: _, [] => False
  | c :: d :: rest, b :: bs => PairSpells c d b ∧ Spells rest bs

theorem spells_hexEncode (bs : List Byte) : Spells (hexEncode bs) bs := by
  induction bs with
  | nil => rfl
  | cons b bs ih => exact ⟨pairSpells_hexChar b, ih⟩

/-- The pair at each place spells the byte there, read by index as R127 says it. -/
theorem spells_iff_getElem? (text : List Char) (bs : List Byte) :
    Spells text bs ↔ text.length = 2 * bs.length ∧
      ∀ (k : Nat) (b : Byte), bs[k]? = some b →
        ∃ c d, text[2 * k]? = some c ∧ text[2 * k + 1]? = some d ∧ PairSpells c d b := by
  induction text, bs using Spells.induct with
  | case1 bs => cases bs <;> simp [Spells]
  | case2 c bs =>
    simp only [Spells, List.length_singleton, false_iff]
    omega
  | case3 c d rest => simp [Spells]
  | case4 c d rest b bs ih =>
    rw [Spells, ih]
    constructor
    · rintro ⟨hpair, hlen, hrest⟩
      refine ⟨by simp [hlen, Nat.mul_add], fun k b' hb => ?_⟩
      cases k with
      | zero => cases hb; exact ⟨c, d, rfl, rfl, hpair⟩
      | succ k => exact hrest k b' hb
    · rintro ⟨hlen, hall⟩
      obtain ⟨_, _, hc, hd, hpair⟩ := hall 0 b rfl
      cases hc
      cases hd
      exact ⟨hpair, by simpa [Nat.mul_add] using hlen, fun k => hall (k + 1)⟩

/-! ### Decoding -/

theorem hexPairs_of_digits {c d : Char} {x y : Nat} (hc : hexDigit? c = some x) (hd : hexDigit? d = some y) (p : Nat)
    (rest : List Char) :
    hexPairs p (c :: d :: rest) = (hexPairs (p + 2) rest).map (BitVec.ofNat 8 (16 * x + y) :: ·) := by
  rw [hexPairs, hc, hd]
  cases hexPairs (p + 2) rest <;> rfl

theorem hexPairs_of_bad_pair {c d : Char} (h : hexDigit? c = none ∨ hexDigit? d = none) (p : Nat) (rest : List Char) :
    hexPairs p (c :: d :: rest) = .error (.badPair p) := by
  rw [hexPairs]
  obtain h | h := h <;> simp [h]

theorem pair_cases (c d : Char) :
    (∃ x y, hexDigit? c = some x ∧ hexDigit? d = some y) ∨ (hexDigit? c = none ∨ hexDigit? d = none) := by
  cases hexDigit? c <;> cases hexDigit? d <;> simp

theorem hexPairs_eq_ok (p : Nat) (text : List Char) (bs : List Byte) :
    hexPairs p text = .ok bs ↔ Spells text bs := by
  induction text, bs using Spells.induct generalizing p with
  | case1 bs => simp [hexPairs, Spells, eq_comm]
  | case2 c bs => simp [hexPairs, Spells]
  | case3 c d rest =>
    obtain ⟨x, y, hc, hd⟩ | hbad := pair_cases c d
    · rw [hexPairs_of_digits hc hd]
      cases hexPairs (p + 2) rest <;> simp [Spells, Except.map]
    · simp [hexPairs_of_bad_pair hbad, Spells]
  | case4 c d rest b bs ih =>
    obtain ⟨x, y, hc, hd⟩ | hbad := pair_cases c d
    · rw [hexPairs_of_digits hc hd, Spells, pairSpells_iff hc hd, ← ih (p + 2)]
      cases hexPairs (p + 2) rest <;> simp [Except.map, eq_comm]
    · rw [hexPairs_of_bad_pair hbad, Spells]
      obtain h | h := hbad <;> simp [PairSpells, h]

theorem hexDecode_eq_ok (text : List Char) (bs : List Byte) : hexDecode text = .ok bs ↔ Spells text bs := by
  rw [hexDecode]
  split
  · next hodd =>
    simp only [reduceCtorEq, false_iff, spells_iff_getElem?]
    omega
  · exact hexPairs_eq_ok 0 text bs

/-- In a text of even length the error is at an even place `q`, where a pair that is not two digits starts. -/
theorem hexPairs_eq_error {p : Nat} {text : List Char} {e : HostError} (heven : text.length % 2 = 0)
    (h : hexPairs p text = .error e) :
    ∃ q c d, e = .badPair (p + q) ∧ q % 2 = 0 ∧ text[q]? = some c ∧ text[q + 1]? = some d ∧
      (hexDigit? c = none ∨ hexDigit? d = none) := by
  match text with
  | [] => cases h
  | [_] => cases heven
  | c :: d :: rest =>
    obtain ⟨x, y, hc, hd⟩ | hbad := pair_cases c d
    · have hrest : hexPairs (p + 2) rest = .error e := by
        rw [hexPairs_of_digits hc hd] at h
        cases hr : hexPairs (p + 2) rest with
        | ok bs => rw [hr] at h; cases h
        | error e' => rw [hr] at h; cases h; rfl
      have hlen : rest.length % 2 = 0 := by rw [List.length_cons, List.length_cons] at heven; omega
      obtain ⟨q, c', d', rfl, hq, hc', hd', hbad⟩ := hexPairs_eq_error hlen hrest
      exact ⟨q + 2, c', d', by rw [Nat.add_assoc, Nat.add_comm 2], by omega, hc', hd', hbad⟩
    · cases (hexPairs_of_bad_pair hbad p rest).symm.trans h
      exact ⟨0, c, d, rfl, rfl, rfl, rfl, hbad⟩

/-- Settles O57: the decoder's recursion is `Spells`, read by index; an error in an even text names a bad pair. -/
theorem hexDecodeAcceptsExactlyDigitPairs : Obligations.HexDecodeAcceptsExactlyDigitPairs := by
  refine ⟨fun text bs => ?_, fun text e h => ?_, fun bs => (hexDecode_eq_ok _ bs).2 (spells_hexEncode bs)⟩
  · rw [hexDecode_eq_ok, spells_iff_getElem?]
    simp only [PairSpells, exists_and_left]
  · rw [hexDecode] at h
    split at h
    · next hodd => cases h; exact .inl ⟨hodd, rfl⟩
    · next hodd =>
      have heven : text.length % 2 = 0 := by omega
      obtain ⟨q, c, d, rfl, hq, hc, hd, hbad⟩ := hexPairs_eq_error heven h
      exact .inr ⟨heven, q, c, d, by rw [Nat.zero_add], hq, hc, hd, hbad⟩

end Sys2Proof.Machine
end

section
/-!
PROOFS. What the host reads after a halted run (70_reset_and_hazards.md R130): `stackEntries` by length and by index, and
the readout of a Halted run-mode state.
-/
namespace Sys2Proof.Machine

@[simp] theorem stackEntries_length (k : Nat) (ws : List Word) : (stackEntries k ws).length = ws.length := by
  induction ws generalizing k with
  | nil => rfl
  | cons v rest ih => simp [stackEntries, ih]

/-- A list labelled from `k` holds at place `i` the label `k + i`, since its rest is labelled from `k + 1`. -/
theorem stackEntries_getElem? (k i : Nat) (ws : List Word) :
    (stackEntries k ws)[i]? = ws[i]?.map fun v => (k + i, wordToBe32 v) := by
  induction ws generalizing k i with
  | nil => rfl
  | cons v rest ih =>
    cases i with
    | zero => rfl
    | succ i => simp [stackEntries, ih, Nat.add_assoc, Nat.add_comm 1]

theorem readout_of_halted_run {s : State} (hhalt : s.runState = .halted) (hrun : s.mode = .run) :
    s.readout = .results (stackEntries 0 s.stack) s.mem s.pc s.events := by
  simp only [State.readout, hhalt, hrun]

/-- Settles O56: the entries are the stack labelled from 0, so the one at depth index `i` carries the label `0 + i`. -/
theorem readoutListsStackTopToBottom : Obligations.ReadoutListsStackTopToBottom := by
  intro s hhalt hrun
  refine ⟨stackEntries 0 s.stack, readout_of_halted_run hhalt hrun, stackEntries_length 0 s.stack, fun i v hv => ?_⟩
  rw [stackEntries_getElem?, hv, Option.map_some, Nat.zero_add]

end Sys2Proof.Machine
end
